-- ==== Sys2Proof/Word.lean ====
section
/-! DEFINITION. The words of the block and their plainest arithmetic (00_scope.md rule R7).
Bit 0 is the least significant bit; every word is unsigned. The block has a 32-bit packed word (rule R61), a
24-bit line word (rule R63) and 8-bit channels; hue, saturation, value and every intermediate are exact rationals
(rule R8) and are no bit vectors. -/

namespace Sys2Proof

/-- A `Word32`: the packed colour word, the unit of every transfer (rules R44, R61). -/
abbrev Word32 := BitVec 32

/-- A `Word24`: the 24 significant bits of one word, as they stand on the line (rules R25, R63). -/
abbrev Word24 := BitVec 24

/-- One 8-bit colour channel (rule R61). -/
abbrev Byte := BitVec 8

/-- `zext_32(v)` of rule R7. -/
def zext32 (b : Byte) : Word32 := b.setWidth 32

/-- `sext_32(v)` of rule R7, defined there for completeness; no rule uses it. -/
def sext32 (b : Byte) : Word32 := b.signExtend 32

end Sys2Proof
end

