-- ==== Sys2Proof/Config.lean ====
section
/-! DEFINITION. The configuration record `Cfg` of 00_scope.md rule R6, and the values the spec leaves open.
The record is a field of State (10_state.md rule R31 lists it there) that nothing writes, so that a statement over
all states is a statement for every admitted configuration (rule R6: "every claim must hold for every admitted
value"). The open values of the machine after reset, the readings of the analog reader and the choices of the
scheduler are opaque constants: nothing can evaluate them. -/

namespace Sys2Proof

/-- `RANGE_POLICY`: what happens to a component outside the scaling window (rules R6, R87). -/
inductive RangePolicy where
  | fault
  | clamp
  deriving DecidableEq, Repr

/-- `HUE_MODE` (rules R6, R130). -/
inductive HueMode where
  | sweep
  | sensor
  deriving DecidableEq, Repr

/-- `NUMERICS`: exact rational arithmetic is the only format the spec specifies (rules R6, R99). -/
inductive Numerics where
  | exact
  deriving DecidableEq, Repr

/-- The configuration record, field by field as rule R6 lists it. The widths are realised by the types of
Word.lean; `paceDelayMs` and `bitRate` are recorded and used by no rule (rule R191). -/
structure Cfg where
  wordBits        : Nat
  channelBits     : Nat
  significantBits : Nat
  qdepth          : Nat
  numerics        : Numerics
  rangePolicy     : RangePolicy
  nLeds           : Nat
  hueMode         : HueMode
  calOffset       : Nat
  calDivisor      : Nat
  adcMax          : Nat
  paceDelayMs     : Nat
  bitRate         : Nat
  deriving DecidableEq, Repr

/-- A record rule R6 admits: the fields with a source have the source's value, `QDEPTH` is at least 1, and
`RANGE_POLICY`, `HUE_MODE` and `BIT_RATE` are whatever they are. -/
abbrev Cfg.admitted (c : Cfg) : Prop :=
  c.wordBits = 32 ∧ c.channelBits = 8 ∧ c.significantBits = 24 ∧ 1 ≤ c.qdepth ∧ c.nLeds = 64 ∧
    c.calOffset = 12 ∧ c.calDivisor = 4083 ∧ c.adcMax = 4095 ∧ c.paceDelayMs = 100

/-- `QDEPTH - 1` of the machine after reset: OPEN (rule R6, decision D6). -/
opaque Config.spareDepth : Nat

/-- `BIT_RATE` of the machine after reset: OPEN and unused (rule R6). -/
opaque Config.bitRate : Nat

/-- The analog reader's free readings, before they are brought into the reader's range (rule R122): the `n`-th
reading drawn. -/
opaque Config.rawReading : Nat → Nat

/-- The scheduler's free choice (rules R20, R48): in the `n`-th round of the schedule the host gets one turn more
than this. -/
opaque Config.hostBurst : Nat → Nat

/-- The scheduler's free choice: in the `n`-th round the serializer gets one turn more than this, so that it is
never starved (rule R146). -/
opaque Config.serializerBurst : Nat → Nat

/-- The configuration of the machine after reset: rule R6's values and defaults, the OPEN fields free. -/
def Cfg.initial : Cfg where
  wordBits        := 32
  channelBits     := 8
  significantBits := 24
  qdepth          := Config.spareDepth + 1
  numerics        := .exact
  rangePolicy     := .fault
  nLeds           := 64
  hueMode         := .sweep
  calOffset       := 12
  calDivisor      := 4083
  adcMax          := 4095
  paceDelayMs     := 100
  bitRate         := Config.bitRate

end Sys2Proof
end

