-- ==== Sys2Proof/Syntax.lean ====
section
/-! DEFINITION. The syntax: transaction records (30_encoding.md rules R60, R66 to R69), the instructions they name,
and the transaction programs of a host (rules R70, R71). -/

namespace Sys2Proof

/-- The two agents that take steps (10_state.md rule R20). -/
inductive Agent where
  | host
  | serializer
  deriving DecidableEq, Repr

/-- One operand lane of a CONVERT record as the host hands it over: an exact rational, or one of the values a
floating-point host could hand over that is no rational (rule R60). -/
inductive Operand where
  | rational (x : Rat)
  | nan
  | posInf
  | negInf
  deriving DecidableEq, Repr

/-- A transaction record `{kind, payload}` (rule R66). The payload is one lane per operand; a kind reads the lanes
rule R66 gives it and no other. DESIGN CHOICE (log entry 1): the spec gives the payload no bit positions. -/
structure Record where
  kind : BitVec 2
  h    : Operand
  s    : Operand
  v    : Operand
  w    : Word32
  deriving DecidableEq, Repr

/-- The instructions: one constructor per row of spec/opcode_table.json (rule R66). -/
inductive Instr where
  /-- kind 00, CONVERT: hue, saturation, value (rule R89). -/
  | convert (h s v : Rat)
  /-- kind 01, PUSH: one word (rule R142). -/
  | push (w : Word32)
  /-- kind 10, EMIT (rule R145). -/
  | emit
  /-- kind 11, reserved: refused with RESERVED_KIND (rules R68, R164). -/
  | reserved
  deriving DecidableEq, Repr

/-- The refusal reasons: the closed list of 60_exceptions.md rule R164. -/
inductive RecordRefusal where
  /-- RESERVED_KIND: a record with kind 11. -/
  | reservedKind
  /-- WRONG_ISSUER: EMIT from the host, CONVERT or PUSH from the serializer. -/
  | wrongIssuer
  /-- NOT_RATIONAL: a CONVERT operand that is no rational. -/
  | notRational
  deriving DecidableEq, Repr

/-- A host variable: `wN`, or the temporary `wT` of SHOW (rules R70, R71). -/
inductive Var where
  | named (n : Nat)
  | temp
  deriving DecidableEq, Repr

/-- One line of a transaction program, as the assembly text of rule R70 writes it, SHOW (rule R71) included. -/
inductive Line where
  | convert (n : Nat) (h s v : Rat)
  | pushVar (n : Nat)
  | pushWord (w : Word32)
  | emit
  | show (h s v : Rat)
  deriving DecidableEq, Repr

/-- One request of a host that issues transaction records: a CONVERT whose result a variable takes, a PUSH of a
variable, or any record as it stands. -/
inductive HostOp where
  | convert (dst : Var) (h s v : Operand)
  | push (src : Var)
  | record (r : Record)
  deriving DecidableEq, Repr

end Sys2Proof
end

