-- ==== Sys2Proof/WellFormed.lean ====
section
/-! DEFINITION. Which transaction records may be performed: the three checks of 60_exceptions.md rules R164 and
R165 as conditions on the record and its issuer, and which instructions such a record can name. -/

namespace Sys2Proof

/-- The operand is a rational number (rule R60). -/
def Operand.isRational : Operand → Bool
  | .rational _ => true
  | .nan => false
  | .posInf => false
  | .negInf => false

/-- Check 1: the kind names an operation (rule R68: kind 11 is reserved). -/
def Record.kindWf (r : Record) : Bool := r.kind != 0b11#2

/-- Check 2: CONVERT and PUSH come from the host, EMIT from the serializer (rules R66, R68). -/
def Record.issuerWf (a : Agent) (r : Record) : Bool :=
  match a with
  | .host => r.kind == 0b00#2 || r.kind == 0b01#2
  | .serializer => r.kind == 0b10#2

/-- Check 3: the operands of a CONVERT are rationals (rule R60). -/
def Record.operandsWf (r : Record) : Bool :=
  r.kind != 0b00#2 || (r.h.isRational && r.s.isRational && r.v.isRational)

/-- A record that passes every check of rule R165 when `a` issues it. -/
def Record.wf (a : Agent) (r : Record) : Bool := r.kindWf && r.issuerWf a && r.operandsWf

/-- An instruction that a well-formed record names: any but the reserved kind. -/
def Instr.wf : Instr → Bool
  | .convert _ _ _ => true
  | .push _ => true
  | .emit => true
  | .reserved => false

end Sys2Proof
end

