-- ==== Sys2Proof/Decode.lean ====
section
/-! DEFINITION. The decoder of transaction records (30_encoding.md rules R66 to R69, 60_exceptions.md rule R165),
total on every record and either issuer, rejecting by the names of rule R164; and the encoder, written from the same
table. Kind 11 decodes to the row it names, `.reserved`, whose meaning raises RESERVED_KIND. -/

namespace Sys2Proof

/-- The rational an operand lane holds, exactly as given: no scaling, range check or extension (rule R67). -/
def Operand.rational? : Operand → Option Rat
  | .rational x => some x
  | .nan => none
  | .posInf => none
  | .negInf => none

/-- The three operands of a CONVERT, where all are rationals (rules R60, R67). -/
def decodeConvert (r : Record) : Except RecordRefusal Instr :=
  match r.h.rational?, r.s.rational?, r.v.rational? with
  | some h, some s, some v => .ok (.convert h s v)
  | _, _, _ => .error .notRational

/-- An operation only `who` may request (rule R68). -/
def onlyFrom (who issuer : Agent) (d : Except RecordRefusal Instr) : Except RecordRefusal Instr :=
  if issuer = who then d else .error .wrongIssuer

/-- The decoder: every 2-bit kind names one row of rule R66; the issuer is checked before the operands (rule R165). -/
def decode (issuer : Agent) (r : Record) : Except RecordRefusal Instr :=
  match r.kind.toNat with
  | 0 => onlyFrom .host issuer (decodeConvert r)
  | 1 => onlyFrom .host issuer (.ok (.push r.w))
  | 2 => onlyFrom .serializer issuer (.ok .emit)
  | _ => .ok .reserved

/-- The reason for which a record is refused, if it is (rules R164, R165). -/
def refusalOf (issuer : Agent) (r : Record) : Option RecordRefusal :=
  match decode issuer r with
  | .ok .reserved => some .reservedKind
  | .ok _ => none
  | .error e => some e

/-- A record with the kind given and every payload lane zero. -/
def blankRecord (kind : BitVec 2) : Record :=
  { kind := kind, h := .rational 0, s := .rational 0, v := .rational 0, w := 0 }

/-- The record of an instruction (rule R66); lanes the kind does not read are zero. -/
def encode : Instr → Record
  | .convert h s v => { blankRecord 0b00#2 with h := .rational h, s := .rational s, v := .rational v }
  | .push w => { blankRecord 0b01#2 with w := w }
  | .emit => blankRecord 0b10#2
  | .reserved => blankRecord 0b11#2

/-- Who issues a kind (rule R66). Nobody issues the reserved kind; a model that places one gives it to the host
(log entry 2). -/
def kindIssuer (kind : BitVec 2) : Agent := if kind = 0b10#2 then .serializer else .host

/-- Who issues an instruction's record. -/
def Instr.issuer (i : Instr) : Agent := kindIssuer (encode i).kind

/-- The record that the opcode table's bits stand for: the table numbers only the kind (bits 1..0), so the payload
lanes are zero (log entry 2). -/
def tableRecord (nbits w : Nat) : Record := blankRecord (BitVec.ofNat 2 (w % 2 ^ nbits))

/-- The instruction the decoder reads from the opcode table's bits, issued by the agent rule R66 names. -/
def decodeTableWord (nbits w : Nat) : Option Instr :=
  let r := tableRecord nbits w
  (decode (kindIssuer r.kind) r).toOption

end Sys2Proof
end

