-- ==== Sys2Proof/Machine/State.lean ====
section
/-! DEFINITION. The state of the model (10_state.md rule R31), why a step can stop, and the machine after reset.
All of it is plain data. `cfg`, `queue`, `out`, `fault` and `refused` are the block's (rules R6, R24 to R27); `ret`
is the word CONVERT returns to the host (rule R89); `repo` is the repository's host (rule R30); `driver`, `prog` and
`serRecords` let any other host, or a serializer that issues other records than its own EMIT, take their place
(41_host_environment.md, 30_encoding.md rules R66, R68, R70); `adc` and `sched` are the model's own: the readings the
analog reader gives and the order in which the agents are scheduled (rules R122, R20). -/

namespace Sys2Proof.Machine

/-- A colour channel, in the order rule R87 looks at them. -/
inductive Channel where
  | red
  | green
  | blue
  deriving DecidableEq, Repr

/-- The model fault reasons: the closed list of 60_exceptions.md rule R163, with one member. It is raised by CONVERT
as the mark `State.fault` (a next state); a step in a state that carries the mark stops with it (rules R26, R167).
Safe: a claim about a run that reaches it cannot be proved, where a real converter would return some byte. -/
inductive Fault where
  /-- The selected component `c` of `channel` lies outside the scaling window. Raised by CONVERT (rule R87) under
  `RANGE_POLICY = fault`; safe. -/
  | range (channel : Channel) (c : Rat)
  deriving DecidableEq, Repr

/-- Why a step is refused. -/
inductive Refusal where
  /-- An instruction without a meaning. No instruction of this model is one; safe. -/
  | notModelled (mnemonic : String)
  /-- A step in a state whose refusal mark is set: no agent has a step there (rules R27, R167). Raised by every
  operation; safe. -/
  | refusedMark
  deriving DecidableEq, Repr

/-- Which host drives the block: the repository's own (41_host_environment.md), or one that issues the transaction
records of a program (rule R70). -/
inductive Driver where
  | repository
  | records
  deriving DecidableEq, Repr

/-- The phases of the repository's host (rules R30, R133): Sample, Render-and-Stream before and after the pixel's
CONVERT, and Pace. -/
inductive Phase where
  | sample
  | render
  | awaitPush
  | pace
  deriving DecidableEq, Repr

/-- The state of the repository's host (rules R30, R121, R123, R126): its phase, the pixel index `k`, the hue
accumulator, the frame's sampled value, saturation and (in sensor mode) hue, and the word `wk` that awaits its PUSH. -/
structure RepoHost where
  phase  : Phase
  pixel  : Nat
  hueAcc : Rat
  val    : Rat
  sat    : Rat
  hue    : Rat
  word   : Word32
  deriving DecidableEq, Repr

/-- The state of a host that runs a transaction program (rules R70, R71): the requests still to issue, oldest first,
the variables `wN` (rising numbers, no entry that is zero, unlisted ones read as zero) and the temporary `wT`. -/
structure RecordHost where
  program : List HostOp
  vars    : List (Nat × Word32)
  temp    : Word32
  deriving DecidableEq, Repr

/-- The analog reader (rule R122): readings already given, oldest first, and the number of free readings drawn. -/
structure Reader where
  readings : List Nat
  draws    : Nat
  deriving DecidableEq, Repr

/-- The scheduler (rules R20, R48): the turns already chosen, first to come first, and the number of free rounds
drawn. -/
structure Schedule where
  turns  : List Agent
  rounds : Nat
  deriving DecidableEq, Repr

/-- The state of the machine. -/
structure State where
  cfg        : Cfg
  queue      : List Word32
  out        : List Word24
  fault      : Option Fault
  refused    : Bool
  ret        : Word32
  driver     : Driver
  repo       : RepoHost
  prog       : RecordHost
  serRecords : List Record
  adc        : Reader
  sched      : Schedule
  deriving DecidableEq, Repr

/-- The start of a run (70_reset_and_hazards.md rules R180 to R182): queue and line empty, no mark set, the
repository's host in Sample with pixel index 0 and hue accumulator 0. Registers the spec gives no reset value are zero
(log entry 3). -/
def State.reset : State where
  cfg        := Cfg.initial
  queue      := []
  out        := []
  fault      := none
  refused    := false
  ret        := 0
  driver     := .repository
  repo       := { phase := .sample, pixel := 0, hueAcc := 0, val := 0, sat := 0, hue := 0, word := 0 }
  prog       := { program := [], vars := [], temp := 0 }
  serRecords := []
  adc        := { readings := [], draws := 0 }
  sched      := { turns := [], rounds := 0 }

end Sys2Proof.Machine
end

