-- ==== Sys2Proof/Machine/Operands.lean ====
section
/-! DEFINITION. The lanes of a packed word and of the line (30_encoding.md rules R61 to R64, 20_memory.md rule R43),
and the rounding of the scaling stage (00_scope.md rule R8). -/

namespace Sys2Proof.Machine

/-- `G(w) = w[31:24]` (rule R62). -/
def greenOf (w : Word32) : Byte := w.extractLsb' 24 8

/-- `R(w) = w[23:16]` (rule R62). -/
def redOf (w : Word32) : Byte := w.extractLsb' 16 8

/-- `B(w) = w[15:8]` (rule R62). -/
def blueOf (w : Word32) : Byte := w.extractLsb' 8 8

/-- `Z(w) = w[7:0]` (rule R62). -/
def lowOf (w : Word32) : Byte := w.extractLsb' 0 8

/-- `pack(R, G, B)` of rule R62: green high, then red, then blue, the low byte zero. -/
def pack (r g b : Byte) : Word32 := (zext32 g <<< 24) ||| (zext32 r <<< 16) ||| (zext32 b <<< 8)

/-- `line(w) = w[31:8]`, the word the serializer transmits (rule R63). -/
def line (w : Word32) : Word24 := w.extractLsb' 8 24

/-- The bits of a line word in the order they are sent, most significant first (rules R43, R63). -/
def sentBits (l : Word24) : List Bool := (List.range 24).map fun n => l.getLsbD (23 - n)

/-- `trunc(x)` of rule R8: the integer part, rounded toward zero. -/
def trunc (x : Rat) : Int := if 0 ≤ x then ⌊x⌋ else ⌈x⌉

end Sys2Proof.Machine
end

