-- ==== Sys2Proof/Machine/Flags.lean ====
section
/-! DEFINITION. The conditions of the block. It has no flag register (10_state.md rules R22, R23): fullness and
emptiness are conditions of the queue, read only as enabling conditions (42_pixel_stream.md rules R141, R144). -/

namespace Sys2Proof.Machine

/-- `full ≡ |Q| = QDEPTH` (rule R23). -/
def State.full (s : State) : Bool := s.queue.length == s.cfg.qdepth

/-- `empty ≡ |Q| = 0` (rule R23). -/
def State.empty (s : State) : Bool := s.queue.length == 0

/-- The queue has room: PUSH's condition on `Q` in rule R141. -/
def State.hasRoom (s : State) : Bool := decide (s.queue.length < s.cfg.qdepth)

/-- No fault and no refusal is marked: some agent may have a step (rules R26, R27). -/
def State.live (s : State) : Bool := s.fault.isNone && !s.refused

/-- PUSH is enabled (rule R141). -/
def State.pushEnabled (s : State) : Bool := s.hasRoom && s.live

/-- EMIT is enabled (rule R144). -/
def State.emitEnabled (s : State) : Bool := !s.empty && s.live

end Sys2Proof.Machine
end

