-- ==== Sys2Proof/Machine/Ops.lean ====
section
/-! DEFINITION. The named operations on the state that the meanings share: the marks (00_scope.md rule R9,
60_exceptions.md rules R163 to R167), the queue and the line (10_state.md rules R24, R25), the word returned to the
host (40_color_model.md rule R89), and the host's variables (30_encoding.md rule R70).
Raising a fault is this block's whole exception entry: the mark takes the reason and its operand, and nothing else
changes (rule R166). There is no return from it (rule R167). -/

namespace Sys2Proof.Machine

/-- The outcome type of this machine's steps. -/
abbrev Result := Host.Outcome State Fault Refusal

/-- An operation of any agent: it has no step in a state that carries a mark (rules R26, R27, R167). -/
def whenLive (s : State) (k : Result) : Result :=
  match s.fault with
  | some f => .fault f
  | none => if s.refused then .refused .refusedMark else k

/-- `raise Fault(reason)` (rules R9, R26, R166). -/
def State.raiseFault (s : State) (f : Fault) : State := { s with fault := some f }

/-- `refuse(reason)` (rules R9, R27, R164): the mark is a Boolean. -/
def State.refuse (s : State) : State := { s with refused := true }

/-- `Q <- Q ++ [w]` (rule R142). -/
def State.enqueue (s : State) (w : Word32) : State := { s with queue := s.queue ++ [w] }

/-- `Q <- rest`, `Out <- Out ++ [w[31:8]]`: the oldest word `w` leaves a queue `w :: rest` (rule R145). -/
def State.transmit (s : State) (w : Word32) (rest : List Word32) : State :=
  { s with queue := rest, out := s.out ++ [line w] }

/-- CONVERT returns one word to the host (rule R89). -/
def State.returnWord (s : State) (w : Word32) : State := { s with ret := w }

/-- The value of `wN`: the listed word, zero where none is listed (log entry 3). -/
def readVar : List (Nat × Word32) → Nat → Word32
  | [], _ => 0
  | (m, w) :: rest, n => if m = n then w else readVar rest n

/-- The list with every entry of `n` taken out. -/
def dropVar : List (Nat × Word32) → Nat → List (Nat × Word32)
  | [], _ => []
  | (m, w) :: rest, n => if m = n then dropVar rest n else (m, w) :: dropVar rest n

/-- The list with an entry put in at its place. -/
def insertVar : List (Nat × Word32) → Nat → Word32 → List (Nat × Word32)
  | [], n, w => [(n, w)]
  | (m, u) :: rest, n, w => if n < m then (n, w) :: (m, u) :: rest else (m, u) :: insertVar rest n w

/-- `wN <- w`, keeping the canonical form: writing zero takes the entry out. -/
def writeVar (vs : List (Nat × Word32)) (n : Nat) (w : Word32) : List (Nat × Word32) :=
  if w = 0 then dropVar vs n else insertVar (dropVar vs n) n w

/-- Strictly rising variable numbers. -/
def risingVars : List (Nat × Word32) → Bool
  | [] => true
  | [_] => true
  | (m, _) :: (n, w) :: rest => decide (m < n) && risingVars ((n, w) :: rest)

/-- The canonical form of the host's variables: rising numbers, no entry that is zero. -/
def wfVars (vs : List (Nat × Word32)) : Bool := risingVars vs && vs.all fun e => e.2 != 0

/-- The word a host variable holds (rule R70). -/
def RecordHost.getVar (p : RecordHost) : Var → Word32
  | .named n => readVar p.vars n
  | .temp => p.temp

/-- A host variable takes a word (rule R70). -/
def RecordHost.setVar (p : RecordHost) (x : Var) (w : Word32) : RecordHost :=
  match x with
  | .named n => { p with vars := writeVar p.vars n w }
  | .temp => { p with temp := w }

end Sys2Proof.Machine
end

