-- ==== Sys2Proof/Machine/Controller.lean ====
section
/-! DEFINITION. The hosts that drive the block. The repository's host (41_host_environment.md rules R120 to R133):
sampling and calibration, the hue of a pixel, its phases. A host that runs a transaction program (30_encoding.md rules
R70, R71). Both ask for an operation by a transaction record, and take a step of their own when it has completed. -/

namespace Sys2Proof.Machine

/-- The calibration mapping `(reading - 12) / 4083` (rule R121). -/
def calibrate (c : Cfg) (reading : Nat) : Rat := ((reading : Rat) - c.calOffset) / c.calDivisor

/-- The calibrated hue `360 (reading - 12) / 4083` (rule R121). -/
def calibrateHue (c : Cfg) (reading : Nat) : Rat := 360 * ((reading : Rat) - c.calOffset) / c.calDivisor

/-- A reading brought into the reader's range 0..4095 (rule R122; log entry 6). -/
def intoRange (c : Cfg) (raw : Nat) : Nat := raw % (c.adcMax + 1)

/-- The next reading: the oldest one given, or a free one (rule R122). -/
def Reader.peek (r : Reader) (c : Cfg) : Nat :=
  match r.readings with
  | x :: _ => intoRange c x
  | [] => intoRange c (Config.rawReading r.draws)

/-- The reader after one reading. -/
def Reader.advance (r : Reader) : Reader :=
  match r.readings with
  | _ :: xs => { r with readings := xs }
  | [] => { r with draws := r.draws + 1 }

/-- The analog reader after a Sample step: value and saturation are read, and hue in sensor mode only (rule R121). -/
def sampleReader (c : Cfg) (r : Reader) : Reader :=
  match c.hueMode with
  | .sweep => r.advance.advance
  | .sensor => r.advance.advance.advance

/-- The frame's hue: read from channel 2 in sensor mode, not sampled in sweep mode (rules R121, R124). -/
def sampleHue (c : Cfg) (r : Reader) (hue : Rat) : Rat :=
  match c.hueMode with
  | .sweep => hue
  | .sensor => calibrateHue c (r.advance.advance.peek c)

/-- The repository's host after Sample (rules R121, R123, R133): channel 0 drives value, channel 1 saturation; pixel
index and accumulator start at 0. -/
def sampleRepo (c : Cfg) (r : Reader) (h : RepoHost) : RepoHost :=
  { h with
    phase := .render, pixel := 0, hueAcc := 0, val := calibrate c (r.peek c), sat := calibrate c (r.advance.peek c),
    hue := sampleHue c r h.hue }

/-- The Sample step (rules R123, R133). -/
def State.sampleStep (s : State) : State :=
  { s with adc := sampleReader s.cfg s.adc, repo := sampleRepo s.cfg s.adc s.repo }

/-- `360 / N_LEDS`, what the hue accumulator grows by (rule R125). -/
def hueStep (c : Cfg) : Rat := 360 / c.nLeds

/-- The hue of the pixel at hand: the accumulator in sweep mode, the sampled hue in sensor mode (rules R124, R125). -/
def pixelHue (c : Cfg) (r : RepoHost) : Rat :=
  match c.hueMode with
  | .sweep => r.hueAcc
  | .sensor => r.hue

/-- What an agent does at its turn. -/
inductive Action where
  /-- It requests an operation of the block. -/
  | request (r : Record)
  /-- The repository's host: Sample (rule R133). -/
  | sample
  /-- The repository's host: the frame is complete (rule R133, the row Render-and-Stream(N_LEDS)). -/
  | endFrame
  /-- The repository's host: PACE (rule R128). -/
  | pace
  /-- It has no step. -/
  | idle
  deriving DecidableEq, Repr

/-- The turn of the repository's host (rules R126, R133). -/
def repoAction (c : Cfg) (r : RepoHost) : Action :=
  match r.phase with
  | .sample => .sample
  | .render => if r.pixel < c.nLeds then .request (encode (.convert (pixelHue c r) r.sat r.val)) else .endFrame
  | .awaitPush => .request (encode (.push r.word))
  | .pace => .pace

/-- The record of a program's request, variables read (rules R66, R70). -/
def RecordHost.recordOf (p : RecordHost) : HostOp → Record
  | .convert _ h sat v => { blankRecord 0b00#2 with h := h, s := sat, v := v }
  | .push x => encode (.push (p.getVar x))
  | .record r => r

/-- The turn of a host that runs a transaction program: its oldest request. -/
def RecordHost.action (p : RecordHost) : Action :=
  match p.program with
  | [] => .idle
  | op :: _ => .request (p.recordOf op)

/-- The host's turn: the driver says which host it is. -/
def State.hostAction (s : State) : Action :=
  match s.driver with
  | .repository => repoAction s.cfg s.repo
  | .records => s.prog.action

/-- The serializer's turn: its own EMIT, or the next record it was given (rules R68, R147). -/
def State.serializerAction (s : State) : Action :=
  match s.serRecords with
  | [] => .request (encode .emit)
  | r :: _ => .request r

/-- The repository's host after its request has completed: the converted word awaits its PUSH; after the PUSH the
next pixel follows (rules R126, R133). -/
def RepoHost.done (h : RepoHost) (c : Cfg) (ret : Word32) : RepoHost :=
  match h.phase with
  | .render => { h with phase := .awaitPush, word := ret }
  | .awaitPush => { h with phase := .render, pixel := h.pixel + 1, hueAcc := h.hueAcc + hueStep c }
  | .sample => h
  | .pace => h

/-- The variable that takes a completed request's result: CONVERT's destination (rule R70); a bare CONVERT record
leaves its word in `wT` (log entry 9). -/
def resultVar : HostOp → Option Var
  | .convert dst _ _ _ => some dst
  | .push _ => none
  | .record r => if r.kind = 0b00#2 then some .temp else none

/-- A program's host once the request `op` has completed: its result variable takes the word returned. -/
def RecordHost.store (p : RecordHost) (op : HostOp) (ret : Word32) : RecordHost :=
  match resultVar op with
  | some x => p.setVar x ret
  | none => p

/-- A program's host after its oldest request has completed. -/
def RecordHost.done (p : RecordHost) (ret : Word32) : RecordHost :=
  match p.program with
  | [] => p
  | op :: rest => { p.store op ret with program := rest }

/-- The agent that requested it goes on after an operation has completed: the host that drives the block, or the
serializer. -/
def State.agentDone (s : State) (a : Agent) : State :=
  match a, s.driver with
  | .host, .repository => { s with repo := s.repo.done s.cfg s.ret }
  | .host, .records => { s with prog := s.prog.done s.ret }
  | .serializer, _ => { s with serRecords := s.serRecords.tail }

/-- The frame's last word has been pushed (rule R133). -/
def State.endFrameStep (s : State) : State := { s with repo := { s.repo with phase := .pace } }

/-- PACE (rule R128): it changes the host's phase alone. -/
def State.paceStep (s : State) : State := { s with repo := { s.repo with phase := .sample } }

end Sys2Proof.Machine
end

