-- ==== Sys2Proof/Machine/Convert.lean ====
section
/-! DEFINITION. CONVERT (40_color_model.md rules R80 to R89): the stages in datapath order, in exact rational
arithmetic, and the instruction's meaning. -/

namespace Sys2Proof.Machine

/-- The three components before scaling, `(r, g, b)`. -/
structure Rgb where
  r : Rat
  g : Rat
  b : Rat
  deriving DecidableEq, Repr

/-- The hue wrap (rule R82): exactly 360 becomes 0, no other hue is reduced. -/
def hueWrap (h : Rat) : Rat := if h = 360 then 0 else h

/-- The sector index `i = floor(h' / 60)`, an unbounded integer (rule R83). -/
def sectorIndex (h : Rat) : Int := ⌊hueWrap h / 60⌋

/-- The fraction `f = h' / 60 - i` (rule R83). -/
def sectorFraction (h : Rat) : Rat := hueWrap h / 60 - sectorIndex h

/-- `p = v (1 - s)` (rule R84). -/
def interpP (s v : Rat) : Rat := v * (1 - s)

/-- `q = v (1 - s f)` (rule R84). -/
def interpQ (f s v : Rat) : Rat := v * (1 - s * f)

/-- `t = v (1 - s (1 - f))` (rule R84). -/
def interpT (f s v : Rat) : Rat := v * (1 - s * (1 - f))

/-- The sector multiplexer (rules R65, R85): the selector is `i` itself, and every index outside 0..4 takes the
default arm. -/
def sectorMux (i : Int) (v p q t : Rat) : Rgb :=
  match i with
  | 0 => ⟨v, t, p⟩
  | 1 => ⟨q, v, p⟩
  | 2 => ⟨p, v, t⟩
  | 3 => ⟨p, q, v⟩
  | 4 => ⟨t, p, v⟩
  | _ => ⟨v, p, q⟩

/-- The chromatic path: wrap, sector, interpolation, multiplexer (rules R82 to R85). -/
def chromatic (h s v : Rat) : Rgb :=
  sectorMux (sectorIndex h) v (interpP s v) (interpQ (sectorFraction h) s v) (interpT (sectorFraction h) s v)

/-- The components CONVERT scales: the achromatic bypass for `s = 0` exactly, else the chromatic path (rules R80,
R81). -/
def components (h s v : Rat) : Rgb := if s = 0 then ⟨v, v, v⟩ else chromatic h s v

/-- The scaling window `-1 < c * 255 < 256` (rule R86). -/
abbrev inWindow (c : Rat) : Prop := -1 < c * 255 ∧ c * 255 < 256

/-- `scale8` inside the window: the truncated product (rule R86). -/
def scale8 (c : Rat) : Byte := BitVec.ofInt 8 (trunc (c * 255))

/-- `scale8` under `RANGE_POLICY = clamp`: 255 above the window, 0 below it (rule R87). -/
def clamp8 (c : Rat) : Byte := if inWindow c then scale8 c else if 256 ≤ c * 255 then 255 else 0

/-- The first channel, in the order red, green, blue, whose component lies outside the window (rule R87). -/
def firstOutside (x : Rgb) : Option Fault :=
  if ¬ inWindow x.r then some (.range .red x.r)
  else if ¬ inWindow x.g then some (.range .green x.g)
  else if ¬ inWindow x.b then some (.range .blue x.b)
  else none

/-- What CONVERT gives: a word or a range fault (rule R97). -/
inductive Converted where
  | word (w : Word32)
  | range (f : Fault)
  deriving DecidableEq, Repr

/-- Scaling and packing (rules R86 to R88). -/
def scaleAndPack (policy : RangePolicy) (x : Rgb) : Converted :=
  match policy with
  | .fault =>
    match firstOutside x with
    | some f => .range f
    | none => .word (pack (scale8 x.r) (scale8 x.g) (scale8 x.b))
  | .clamp => .word (pack (clamp8 x.r) (clamp8 x.g) (clamp8 x.b))

/-- The converter: a pure function of its operands and `RANGE_POLICY` (rules R80, R89, R97). -/
def convert (policy : RangePolicy) (h s v : Rat) : Converted := scaleAndPack policy (components h s v)

/-- CONVERT (rule R89): the word goes back to the host, or the fault is marked; nothing else changes. -/
def execConvert (h s v : Rat) (st : State) : Result :=
  whenLive st <|
    match convert st.cfg.rangePolicy h s v with
    | .word w => .next (st.returnWord w)
    | .range f => .next (st.raiseFault f)

end Sys2Proof.Machine
end

