-- ==== Sys2Proof/Machine/Stream.lean ====
section
/-! DEFINITION. The pixel stream: PUSH and EMIT (42_pixel_stream.md rules R141 to R145), and the reserved kind
(60_exceptions.md rule R164). A held operation leaves the state as it is (00_scope.md rule R10): the agent that
requested it tries again at its next turn. -/

namespace Sys2Proof.Machine

/-- PUSH (rule R142): append the word, or hold while the queue has no room (rule R143). -/
def execPush (w : Word32) (s : State) : Result :=
  whenLive s <| if s.hasRoom then .next (s.enqueue w) else .next s

/-- EMIT (rule R145): the oldest word leaves the queue and its 24 significant bits stand on the line; with an empty
queue the serializer has no step and nothing changes (rule R144). -/
def execEmit (s : State) : Result :=
  whenLive s <|
    match s.queue with
    | [] => .next s
    | w :: rest => .next (s.transmit w rest)

/-- The reserved kind (rules R68, R164): refused with RESERVED_KIND. -/
def execReserved (s : State) : Result := whenLive s (.next s.refuse)

end Sys2Proof.Machine
end

