-- ==== Sys2Proof/Machine/Dispatch.lean ====
section
/-! DEFINITION. The dispatch: one arm per instruction of spec/opcode_table.json. -/

namespace Sys2Proof.Machine

def exec (i : Instr) (s : State) : Host.Outcome State Fault Refusal :=
  match i with
  | .convert h sat v => Sys2Proof.Machine.execConvert h sat v s
  | .push w => Sys2Proof.Machine.execPush w s
  | .emit => Sys2Proof.Machine.execEmit s
  | .reserved => Sys2Proof.Machine.execReserved s

end Sys2Proof.Machine
end

