-- ==== Sys2Proof/Machine/Turn.lean ====
section
/-! DEFINITION. One turn: the scheduler names an agent (10_state.md rule R20, 20_memory.md rule R48), which requests
an operation or takes a step of its own. An agent whose operation is held keeps its request (00_scope.md rule R10), so
a turn given to it changes nothing but the schedule. -/

namespace Sys2Proof.Machine

/-- The turns of a free round: at least one of each agent, as many as the scheduler likes (rules R20, R146; log
entry 5). -/
def freeRound (n : Nat) : List Agent :=
  List.replicate (Config.hostBurst n + 1) .host ++ List.replicate (Config.serializerBurst n + 1) .serializer

/-- The schedule with at least one turn chosen. -/
def Schedule.drawn (c : Schedule) : Schedule :=
  match c.turns with
  | _ :: _ => c
  | [] => { turns := freeRound c.rounds, rounds := c.rounds + 1 }

/-- The agent whose turn it is: the first turn chosen; a free round begins with the host's. -/
def State.nextAgent (s : State) : Agent :=
  match s.sched.turns with
  | a :: _ => a
  | [] => .host

/-- The state once the turn is taken from the schedule. -/
def State.takeTurn (s : State) : State :=
  { s with sched := { s.sched.drawn with turns := s.sched.drawn.turns.tail } }

/-- What the agent does at its turn. -/
def State.actionOf (s : State) (a : Agent) : Action :=
  match a with
  | .host => s.hostAction
  | .serializer => s.serializerAction

/-- The operation is held in this state: PUSH without room, EMIT without a word (rules R143, R144). -/
def State.holds (s : State) (i : Instr) : Bool :=
  match i with
  | .convert _ _ _ => false
  | .push _ => !s.hasRoom
  | .emit => s.empty
  | .reserved => false

/-- The requesting agent goes on when its operation has completed: not when it is held, and not past a mark. -/
def State.settle (s : State) (a : Agent) (i : Instr) (t : State) : State :=
  if s.holds i || !t.live then t else t.agentDone a

/-- Agent `a` issues a record: it is refused, or the instruction it names is performed (rules R66, R165). -/
def issue (a : Agent) (r : Record) (s : State) : Result :=
  match decode a r with
  | .error _ => whenLive s (.next s.refuse)
  | .ok i =>
    match exec i s with
    | .next t => .next (s.settle a i t)
    | .fault f => .fault f
    | .refused e => .refused e

/-- An agent's action, performed. -/
def perform (a : Agent) (act : Action) (s : State) : Result :=
  match act with
  | .request r => issue a r s
  | .sample => whenLive s (.next s.sampleStep)
  | .endFrame => whenLive s (.next s.endFrameStep)
  | .pace => whenLive s (.next s.paceStep)
  | .idle => whenLive s (.next s)

/-- One turn of the machine. -/
def turn (s : State) : Result := perform s.nextAgent (s.actionOf s.nextAgent) s.takeTurn

/-- A state in which `a` issues `r` at the very next turn: the host runs the one-record program `r`, or the
serializer has `r` to issue, and the turn is its own (log entry 4). -/
def State.place (s : State) (a : Agent) (r : Record) : State :=
  let t := { s with sched := { s.sched with turns := a :: s.sched.turns } }
  match a with
  | .host => { t with driver := .records, prog := { t.prog with program := [.record r] } }
  | .serializer => { t with serRecords := [r] }

end Sys2Proof.Machine
end

