-- ==== Sys2Proof/Machine/Step.lean ====
section
/-! DEFINITION. The step of the machine, and how an instruction of the opcode table is put where the next step
takes it. The block fetches nothing (20_memory.md rule R51): its agents issue transaction records. -/

namespace Sys2Proof.Machine

/-- One step: one turn of the agent that is scheduled. -/
def step (s : State) : Host.Outcome State Fault Refusal := turn s

/-- The state whose very next step performs the table's word, issued by the agent rule R66 names. -/
def State.withFetchWord (s : State) (nbits w : Nat) : State :=
  s.place (kindIssuer (tableRecord nbits w).kind) (tableRecord nbits w)

end Sys2Proof.Machine
end

