-- ==== Sys2Proof/Machine/Assembly.lean ====
section
/-! DEFINITION. The assembly text of transaction programs (30_encoding.md rule R70) and its pseudo-instruction SHOW
(rule R71): one line of text to a line of a program, a program to the requests a host issues, and the state whose host
runs them. Text is a list of characters. -/

namespace Sys2Proof.Machine

/-- SHOW is CONVERT into the temporary, then PUSH of it (rule R71); every other line is one request (rule R70). -/
def expandLine : Line → List HostOp
  | .convert n h s v => [.convert (.named n) (.rational h) (.rational s) (.rational v)]
  | .pushVar n => [.push (.named n)]
  | .pushWord w => [.record (encode (.push w))]
  | .emit => [.record (encode .emit)]
  | .show h s v => [.convert .temp (.rational h) (.rational s) (.rational v), .push .temp]

/-- The state whose host runs the lines given. -/
def State.load (s : State) (lines : List Line) : State :=
  { s with driver := .records, prog := { s.prog with program := lines.flatMap expandLine } }

/-- White space between the parts of a line. -/
def isBlank (c : Char) : Bool := c == ' ' || c == '\t' || c == '\r' || c == '\n'

/-- A `;` starts a comment. -/
def stripComment (cs : List Char) : List Char := cs.takeWhile (· != ';')

/-- The text without the white space at its ends. -/
def trim (cs : List Char) : List Char := ((cs.dropWhile isBlank).reverse.dropWhile isBlank).reverse

/-- The parts between commas. -/
def splitCommas : List Char → List (List Char)
  | [] => [[]]
  | c :: cs =>
    match splitCommas cs with
    | [] => [[c]]
    | p :: ps => if c == ',' then [] :: p :: ps else (c :: p) :: ps

/-- The value of a digit of a literal in a base up to 16, letters of either case: its place in the row of digits. -/
def digitValue (base : Nat) (digit : Char) : Option Nat :=
  ("0123456789ABCDEF".toList.take base).findIdx? (digit.toUpper == ·)

/-- The number that a row of digits stands for in a base, the most significant first. -/
def readDigits (base : Nat) (digits : List Char) : Option Nat :=
  digits.foldlM (fun value digit => (digitValue base digit).map (value * base + ·)) 0

/-- A natural number: at least one decimal digit. -/
def readNat (cs : List Char) : Option Nat := if cs.isEmpty then none else readDigits 10 cs

/-- A `Word32` literal `0xHHHHHHHH`. -/
def readWord (cs : List Char) : Option Word32 :=
  match cs with
  | '0' :: 'x' :: ds => if ds.length = 8 then (readDigits 16 ds).map (BitVec.ofNat 32) else none
  | _ => none

/-- A host variable `wN`. -/
def readVarName (cs : List Char) : Option Nat :=
  match cs with
  | 'w' :: ds => readNat ds
  | _ => none

/-- A rational without its sign: a fraction `a/b`, a decimal `a.b` or an integer. -/
def readMagnitude (cs : List Char) : Option Rat :=
  if cs.contains '/' then
    match readNat (cs.takeWhile (· != '/')), readNat ((cs.dropWhile (· != '/')).tail) with
    | some a, some b => if b = 0 then none else some ((a : Rat) / (b : Rat))
    | _, _ => none
  else if cs.contains '.' then
    let whole := cs.takeWhile (· != '.')
    let frac := (cs.dropWhile (· != '.')).tail
    match readNat whole, readNat frac with
    | some a, some b => some ((a : Rat) + (b : Rat) / ((10 ^ frac.length : Nat) : Rat))
    | _, _ => none
  else (readNat cs).map fun n => (n : Rat)

/-- A rational as rule R70 writes it. -/
def readRat (cs : List Char) : Option Rat :=
  match cs with
  | '-' :: ds => (readMagnitude ds).map fun x => -x
  | _ => readMagnitude cs

/-- Three rationals. -/
def readRats (hs ss vs : List Char) : Option (Rat × Rat × Rat) :=
  match readRat hs, readRat ss, readRat vs with
  | some h, some s, some v => some (h, s, v)
  | _, _, _ => none

/-- The line a mnemonic and its operands make. -/
def readInstruction (mnemonic : List Char) (args : List (List Char)) : Option Line :=
  if mnemonic == "CONVERT".toList then
    match args with
    | [x, h, s, v] =>
      match readVarName x, readRats h s v with
      | some n, some (h, s, v) => some (.convert n h s v)
      | _, _ => none
    | _ => none
  else if mnemonic == "PUSH".toList then
    match args with
    | [x] =>
      match readVarName x, readWord x with
      | some n, _ => some (.pushVar n)
      | none, some w => some (.pushWord w)
      | none, none => none
    | _ => none
  else if mnemonic == "EMIT".toList then
    match args with
    | [[]] => some .emit
    | _ => none
  else if mnemonic == "SHOW".toList then
    match args with
    | [h, s, v] => (readRats h s v).map fun x => .show x.1 x.2.1 x.2.2
    | _ => none
  else none

/-- A line of text: no line for one that is blank or only a comment, none at all for text that is no line. -/
def readLine (text : List Char) : Option (List Line) :=
  let cs := trim (stripComment text)
  if cs.isEmpty then some []
  else
    (readInstruction (cs.takeWhile fun c => !isBlank c)
      ((splitCommas (cs.dropWhile fun c => !isBlank c)).map trim)).map fun l => [l]

/-- A program text, line by line. -/
def readProgram : List (List Char) → Option (List Line)
  | [] => some []
  | text :: texts =>
    match readLine text, readProgram texts with
    | some l, some ls => some (l ++ ls)
    | _, _ => none

end Sys2Proof.Machine
end

