-- ==== Sys2Proof/Safety.lean ====
section
/-! DEFINITION. What the claims about runs are stated in: the words a run accepts and transmits (10_state.md rule R29,
42_pixel_stream.md rule R148), the frames it starts, and what holds of every state that the repository's host reaches
(41_host_environment.md rules R125, R126, R132). A run is `core.run`: it goes on while every step answers a next
state. -/

namespace Sys2Proof.Machine

/-- The queue never holds more than `QDEPTH` words (rules R24, R29). -/
def State.QueueBounded (s : State) : Prop := s.queue.length ≤ s.cfg.qdepth

/-- The instruction that the next step issues, where its record passes the checks of rule R165. -/
def State.nextInstr (s : State) : Option Instr :=
  match s.actionOf s.nextAgent with
  | .request r => (decode s.nextAgent r).toOption
  | .sample => none
  | .endFrame => none
  | .pace => none
  | .idle => none

/-- The word that the next step's PUSH appends to the queue, if it does (rules R141, R142). -/
def State.accepted (s : State) : List Word32 :=
  match s.nextInstr with
  | some (.push w) => if s.pushEnabled then [w] else []
  | some (.convert _ _ _) => []
  | some .emit => []
  | some .reserved => []
  | none => []

/-- The word that the next step's EMIT takes from the queue, if it does (rules R144, R145). -/
def State.taken (s : State) : List Word32 :=
  match s.nextInstr with
  | some .emit => if s.emitEnabled then s.queue.take 1 else []
  | some (.convert _ _ _) => []
  | some (.push _) => []
  | some .reserved => []
  | none => []

/-- The number of frames the next step starts: one when it is the repository's host's Sample (rule R123). -/
def State.sampled (s : State) : Nat := if s.actionOf s.nextAgent = .sample then 1 else 0

/-- The words PUSH accepts in the next `n` steps, in order. -/
def acceptedIn : Nat → State → List Word32
  | 0, _ => []
  | n + 1, s =>
    match step s with
    | .next t => s.accepted ++ acceptedIn n t
    | .fault _ => []
    | .refused _ => []

/-- The words EMIT takes in the next `n` steps, in order. -/
def takenIn : Nat → State → List Word32
  | 0, _ => []
  | n + 1, s =>
    match step s with
    | .next t => s.taken ++ takenIn n t
    | .fault _ => []
    | .refused _ => []

/-- The frames started in the next `n` steps. -/
def framesIn : Nat → State → Nat
  | 0, _ => 0
  | n + 1, s =>
    match step s with
    | .next t => s.sampled + framesIn n t
    | .fault _ => 0
    | .refused _ => 0

/-- The calibrated domain of saturation and value, `[-12/4083, 1]` (rules R92, R121). -/
def Calibrated (x : Rat) : Prop := -12 / 4083 ≤ x ∧ x ≤ 1

/-- A state the repository's host drives, as the whole run keeps it: an admitted configuration, no mark, the
serializer issuing its own EMITs, the frame's saturation and value calibrated, the pixel index within the frame and
the hue accumulator at `k * 360 / N` (rules R121, R125, R132, R133). -/
structure State.RepositoryRun (s : State) : Prop where
  admitted   : s.cfg.admitted
  live       : s.live = true
  driver     : s.driver = .repository
  serializer : s.serRecords = []
  bounded    : s.QueueBounded
  sat        : Calibrated s.repo.sat
  val        : Calibrated s.repo.val
  pixel      : s.repo.pixel ≤ s.cfg.nLeds
  awaiting   : s.repo.phase = .awaitPush → s.repo.pixel < s.cfg.nLeds
  hueAcc     : s.repo.hueAcc = s.repo.pixel * (360 / s.cfg.nLeds)

/-- The hue of pixel `k` of the frame at hand (rule R124): `k * (360 / N)` in sweep mode, the sampled hue in sensor
mode. -/
def State.hueOfPixel (s : State) (k : Nat) : Rat :=
  match s.cfg.hueMode with
  | .sweep => k * (360 / s.cfg.nLeds)
  | .sensor => s.repo.hue

/-- What CONVERT gives for pixel `k` of the frame at hand (rule R126). -/
def State.pixelConverted (s : State) (k : Nat) : Converted :=
  convert s.cfg.rangePolicy (s.hueOfPixel k) s.repo.sat s.repo.val

end Sys2Proof.Machine
end

