-- ==== Sys2Proof/Certificates/Slice0/Obligations.lean ====
section
/-! DEFINITION. The statements for the provers. Each docstring names the rule of spec/ that the statement formalises.
A statement over all states is one over all configurations, since the configuration is a field of the state that
nothing writes (00_scope.md rule R6). -/

open Sys2Proof Sys2Proof.Machine

/-! ## The converter -/

/-- 40_color_model.md section 2 (R89): CONVERT is the pseudocode of rule R89, written out here without the model's own
stages: the achromatic test, wrap, floor, intermediates, multiplexer, and per component the window, the policy and the
truncation; and two of the rule's examples. -/
def Obligations.ConvertIsThePseudocode : Prop :=
  (∀ (st : State) (h s v h1 f p q t r g b : Rat) (i : Int), st.live = true →
    h1 = (if h = 360 then 0 else h) → i = ⌊h1 / 60⌋ → f = h1 / 60 - i →
    p = v * (1 - s) → q = v * (1 - s * f) → t = v * (1 - s * (1 - f)) →
    (r, g, b) =
      (if s = 0 then (v, v, v) else if i = 0 then (v, t, p) else if i = 1 then (q, v, p)
        else if i = 2 then (p, v, t) else if i = 3 then (p, q, v) else if i = 4 then (t, p, v) else (v, p, q)) →
    let inside : Rat → Prop := fun c => -1 < c * 255 ∧ c * 255 < 256
    let byte : Rat → Byte := fun c =>
      if -1 < c * 255 ∧ c * 255 < 256 then BitVec.ofInt 8 (if 0 ≤ c * 255 then ⌊c * 255⌋ else ⌈c * 255⌉)
      else if 256 ≤ c * 255 then 255#8 else 0#8
    (st.cfg.rangePolicy = .fault → ¬ inside r →
      exec (.convert h s v) st = .next { st with fault := some (.range .red r) }) ∧
    (st.cfg.rangePolicy = .fault → inside r → ¬ inside g →
      exec (.convert h s v) st = .next { st with fault := some (.range .green g) }) ∧
    (st.cfg.rangePolicy = .fault → inside r → inside g → ¬ inside b →
      exec (.convert h s v) st = .next { st with fault := some (.range .blue b) }) ∧
    (st.cfg.rangePolicy = .clamp ∨ (inside r ∧ inside g ∧ inside b) →
      exec (.convert h s v) st = .next { st with
        ret := (zext32 (byte g) <<< 24) ||| (zext32 (byte r) <<< 16) ||| (zext32 (byte b) <<< 8) })) ∧
  ∀ st : State, st.live = true →
    exec (.convert 30 (1 / 2) (1 / 2)) st = .next { st with ret := 0x5F7F3F00#32 } ∧
    ∀ h s : Rat, exec (.convert h s 0) st = .next { st with ret := 0#32 }

/-- 40_color_model.md R88: CONVERT's result is the packed word of the scaled components, low byte zero, and nothing
but the word returned to the host changes (R89): inside the scaling window under either policy, each byte the
truncated product; under `clamp` for every operand. -/
def Obligations.ConvertPacksTheScaledComponents : Prop :=
  (∀ (st : State) (h s v : Rat), st.live = true →
    inWindow (components h s v).r → inWindow (components h s v).g → inWindow (components h s v).b →
    ∃ R G B : Byte, ∃ w : Word32,
      R.toNat = trunc ((components h s v).r * 255) ∧ G.toNat = trunc ((components h s v).g * 255) ∧
      B.toNat = trunc ((components h s v).b * 255) ∧
      w = (zext32 G <<< 24) ||| (zext32 R <<< 16) ||| (zext32 B <<< 8) ∧ w.extractLsb' 0 8 = 0#8 ∧
      exec (.convert h s v) st = .next { st with ret := w }) ∧
  ∀ (st : State) (h s v : Rat), st.live = true → st.cfg.rangePolicy = .clamp →
    ∃ w : Word32, w = (zext32 (clamp8 (components h s v).g) <<< 24) ||| (zext32 (clamp8 (components h s v).r) <<< 16) |||
        (zext32 (clamp8 (components h s v).b) <<< 8) ∧
      w.extractLsb' 0 8 = 0#8 ∧ exec (.convert h s v) st = .next { st with ret := w }

/-- 40_color_model.md R81, R90: the achromatic bypass is taken exactly at `s = 0` and reads no hue, and it changes no
result. -/
def Obligations.AchromaticBypassReadsNoHue : Prop :=
  (∀ h v : Rat, components h 0 v = ⟨v, v, v⟩) ∧
  (∀ h s v : Rat, s ≠ 0 → components h s v = chromatic h s v) ∧
  (∀ (h h' v : Rat) (st : State), exec (.convert h 0 v) st = exec (.convert h' 0 v) st) ∧
  (∀ h v : Rat, chromatic h 0 v = ⟨v, v, v⟩) ∧
  (∀ (i : Int) (f v : Rat), interpP 0 v = v ∧ interpQ f 0 v = v ∧ interpT f 0 v = v ∧
    sectorMux i v (interpP 0 v) (interpQ f 0 v) (interpT f 0 v) = ⟨v, v, v⟩) ∧
  ∀ st : State, st.live = true → exec (.convert 45 (1 / 1000) 1) st = .next { st with ret := 0xFEFFFE00#32 }

/-- 40_color_model.md R82, R83: the hue wrap of exactly 360, the sector index by floor, and the fraction. -/
def Obligations.SectorIndexIsTheFloor : Prop :=
  ∀ h h' : Rat, (h = 360 → h' = 0) → (h ≠ 360 → h' = h) →
    hueWrap h = h' ∧ sectorIndex h = ⌊h' / 60⌋ ∧ sectorFraction h = h' / 60 - ⌊h' / 60⌋ ∧
    0 ≤ sectorFraction h ∧ sectorFraction h < 1 ∧
    ((0 ≤ sectorIndex h ∧ sectorIndex h ≤ 5) ↔ (0 ≤ h' ∧ h' < 360)) ∧
    (-60 ≤ h' → h' < 0 → sectorIndex h = -1 ∧ sectorFraction h = h' / 60 + 1)

/-- 40_color_model.md R84, R85 and 30_encoding.md R65: the interpolated intermediates and the sector multiplexer,
with the hue range of each arm. -/
def Obligations.SectorTableSelectsTheComponents : Prop :=
  ∀ h s v f p q t : Rat, s ≠ 0 → f = sectorFraction h → p = v * (1 - s) → q = v * (1 - s * f) →
    t = v * (1 - s * (1 - f)) →
    (sectorIndex h = 0 → components h s v = ⟨v, t, p⟩) ∧ (sectorIndex h = 1 → components h s v = ⟨q, v, p⟩) ∧
    (sectorIndex h = 2 → components h s v = ⟨p, v, t⟩) ∧ (sectorIndex h = 3 → components h s v = ⟨p, q, v⟩) ∧
    (sectorIndex h = 4 → components h s v = ⟨t, p, v⟩) ∧
    (sectorIndex h < 0 ∨ 5 ≤ sectorIndex h → components h s v = ⟨v, p, q⟩) ∧
    (0 ≤ h → h < 60 → sectorIndex h = 0) ∧ (60 ≤ h → h < 120 → sectorIndex h = 1) ∧
    (120 ≤ h → h < 180 → sectorIndex h = 2) ∧ (180 ≤ h → h < 240 → sectorIndex h = 3) ∧
    (240 ≤ h → h < 300 → sectorIndex h = 4) ∧ (300 ≤ h → h < 360 → sectorIndex h = 5)

/-- 40_color_model.md R86: the scaling window is exactly where the truncated product is a byte, truncation is toward
zero, and CONVERT returns that byte in each lane of a gray. -/
def Obligations.ScalingTruncatesTowardZero : Prop :=
  (∀ c : Rat, inWindow c ↔ 0 ≤ trunc (c * 255) ∧ trunc (c * 255) ≤ 255) ∧
  (∀ y : Rat, 0 ≤ y → trunc y = ⌊y⌋) ∧ (∀ y : Rat, -1 < y → y < 0 → trunc y = 0) ∧
  (∀ (st : State) (h c : Rat), st.live = true → inWindow c →
    ∃ b : Byte, b.toNat = trunc (c * 255) ∧ exec (.convert h 0 c) st = .next { st with ret := pack b b b }) ∧
  ∀ (st : State) (h : Rat), st.live = true →
    exec (.convert h 0 (999999 / 1000000)) st = .next { st with ret := pack 254 254 254 }

/-- 40_color_model.md R87 and 60_exceptions.md R166: outside the window CONVERT marks the fault of the first channel,
with its component and nothing else changed, under `fault`, and clamps under `clamp`. -/
def Obligations.RangePolicyDecidesOutsideTheWindow : Prop :=
  ∀ (st : State) (h s v : Rat) (c : Rgb), st.live = true → c = components h s v →
    (st.cfg.rangePolicy = .fault → ¬ inWindow c.r →
      exec (.convert h s v) st = .next { st with fault := some (.range .red c.r) }) ∧
    (st.cfg.rangePolicy = .fault → inWindow c.r → ¬ inWindow c.g →
      exec (.convert h s v) st = .next { st with fault := some (.range .green c.g) }) ∧
    (st.cfg.rangePolicy = .fault → inWindow c.r → inWindow c.g → ¬ inWindow c.b →
      exec (.convert h s v) st = .next { st with fault := some (.range .blue c.b) }) ∧
    (st.cfg.rangePolicy = .clamp →
      ∃ R G B : Byte, exec (.convert h s v) st = .next { st with ret := pack R G B } ∧
        ∀ x b, (x, b) ∈ [(c.r, R), (c.g, G), (c.b, B)] →
          (inWindow x → b.toNat = trunc (x * 255)) ∧ (256 ≤ x * 255 → b = 255#8) ∧ (x * 255 ≤ -1 → b = 0#8))

/-- 40_color_model.md R91: on the nominal domain, for every hue, every candidate lies in `[0, v]`, CONVERT raises no
fault under either policy, and every byte is the floor of its product. -/
def Obligations.NominalDomainNeverFaults : Prop :=
  ∀ (st : State) (h s v : Rat), st.live = true → 0 ≤ s → s ≤ 1 → 0 ≤ v → v ≤ 1 →
    (∀ x ∈ [v, interpP s v, interpQ (sectorFraction h) s v, interpT (sectorFraction h) s v], 0 ≤ x ∧ x ≤ v) ∧
    (∀ x ∈ [(components h s v).r, (components h s v).g, (components h s v).b], 0 ≤ x * 255 ∧ x * 255 ≤ 255) ∧
    ∃ R G B : Byte, R.toNat = ⌊(components h s v).r * 255⌋ ∧ G.toNat = ⌊(components h s v).g * 255⌋ ∧
      B.toNat = ⌊(components h s v).b * 255⌋ ∧ exec (.convert h s v) st = .next { st with ret := pack R G B }

/-- 40_color_model.md R92: the same on the calibrated domain, where products below 0 give the byte 0 and products of
255 and more the byte 255. -/
def Obligations.CalibratedDomainNeverFaults : Prop :=
  ∀ (st : State) (h s v : Rat), st.live = true → -12 / 4083 ≤ s → s ≤ 1 → -12 / 4083 ≤ v → v ≤ 1 →
    (∀ x ∈ [(components h s v).r, (components h s v).g, (components h s v).b],
      -12 * 4095 / 4083 ^ 2 ≤ x ∧ x ≤ 4095 / 4083 ∧ -(752 / 1000) < x * 255 ∧ x * 255 < 255 + 75 / 100 ∧
        inWindow x) ∧
    ∃ R G B : Byte, exec (.convert h s v) st = .next { st with ret := pack R G B } ∧
      ∀ x b, (x, b) ∈ [((components h s v).r, R), ((components h s v).g, G), ((components h s v).b, B)] →
        b.toNat = trunc (x * 255) ∧ (x * 255 < 0 → b = 0#8) ∧ (255 ≤ x * 255 → b = 255#8)

/-- 40_color_model.md R93: the wrap law, and that it does not extend to 720. -/
def Obligations.HueThreeSixtyConvertsAsZero : Prop :=
  (∀ (st : State) (s v : Rat), exec (.convert 360 s v) st = exec (.convert 0 s v) st) ∧
  ∀ st : State, st.live = true →
    exec (.convert 720 1 1) st = .next { st with ret := 0x00FFFF00#32 } ∧
    exec (.convert 0 1 1) st = .next { st with ret := 0x00FF0000#32 }

/-- 40_color_model.md R94: the fixed points at full saturation and value. -/
def Obligations.PrimariesAndSecondaries : Prop :=
  ∀ st : State, st.live = true →
    exec (.convert 0 1 1) st = .next { st with ret := 0x00FF0000#32 } ∧
    exec (.convert 60 1 1) st = .next { st with ret := 0xFFFF0000#32 } ∧
    exec (.convert 120 1 1) st = .next { st with ret := 0xFF000000#32 } ∧
    exec (.convert 180 1 1) st = .next { st with ret := 0xFF00FF00#32 } ∧
    exec (.convert 240 1 1) st = .next { st with ret := 0x0000FF00#32 } ∧
    exec (.convert 300 1 1) st = .next { st with ret := 0x00FFFF00#32 } ∧
    exec (.convert 360 1 1) st = .next { st with ret := 0x00FF0000#32 }

/-- 40_color_model.md R95: before scaling, each component is continuous in the hue on `[-60, 360]`; the selected
triple jumps (its blue component does) at every multiple of 60 from 360 up and from -60 down, unless `s` or `v` is
zero. -/
def Obligations.ComponentsContinuousInTheHue : Prop :=
  (∀ s v : Rat,
    ContinuousOn (fun h : Rat => (components h s v).r) (Set.Icc (-60) 360) ∧
    ContinuousOn (fun h : Rat => (components h s v).g) (Set.Icc (-60) 360) ∧
    ContinuousOn (fun h : Rat => (components h s v).b) (Set.Icc (-60) 360)) ∧
  ∀ s v : Rat, s ≠ 0 → v ≠ 0 → ∀ k : Int, 6 ≤ k ∨ k ≤ -1 →
    ¬ ContinuousAt (fun h : Rat => (components h s v).b) (60 * (k : Rat))

/-- 40_color_model.md R96: hues above 360 and below 0 take the default arm, and no hue causes a fault: with saturation and
value in the calibrated domain (R92) every hue gives a word. -/
def Obligations.OutOfDomainHuesTakeTheDefaultArm : Prop :=
  (∀ h s v : Rat, s ≠ 0 →
    (360 < h → 6 ≤ sectorIndex h) ∧ (h < 0 → sectorIndex h ≤ -1) ∧
    (360 < h ∨ h < 0 → components h s v = ⟨v, v * (1 - s), v * (1 - s * (h / 60 - ⌊h / 60⌋))⟩)) ∧
  (∀ st : State, st.live = true →
    exec (.convert 361 1 1) st = .next { st with ret := 0x00FFFA00#32 } ∧
    exec (.convert (-30) 1 1) st = .next { st with ret := 0x00FF7F00#32 } ∧
    exec (.convert (-60) 1 1) st = .next { st with ret := 0x00FFFF00#32 } ∧
    exec (.convert 720 1 1) st = .next { st with ret := 0x00FFFF00#32 }) ∧
  ∀ (st : State) (s v : Rat), st.live = true → -12 / 4083 ≤ s → s ≤ 1 → -12 / 4083 ≤ v → v ≤ 1 →
    ∀ h : Rat, ∃ w : Word32, exec (.convert h s v) st = .next { st with ret := w }

/-- 40_color_model.md R97 (and 42_pixel_stream.md section 4): CONVERT's result is a function of its operands and
`RANGE_POLICY` alone, whatever the queue, the line and the host. -/
def Obligations.ConvertDependsOnOperandsAndPolicyAlone : Prop :=
  ∀ (st st' : State) (h s v : Rat), st.live = true → st'.live = true →
    st.cfg.rangePolicy = st'.cfg.rangePolicy →
    (∃ w : Word32, exec (.convert h s v) st = .next { st with ret := w } ∧
      exec (.convert h s v) st' = .next { st' with ret := w }) ∨
    ∃ (ch : Channel) (c : Rat), st.cfg.rangePolicy = .fault ∧
      exec (.convert h s v) st = .next { st with fault := some (.range ch c) } ∧
      exec (.convert h s v) st' = .next { st' with fault := some (.range ch c) }

/-- 40_color_model.md R98: a component on a multiple of 1/255 scales to it, one just below scales one lower. -/
def Obligations.TruncationBoundariesAreExact : Prop :=
  ∀ (st : State) (h : Rat), st.live = true →
    (∀ n : Nat, n ≤ 255 → exec (.convert h 0 ((n : Rat) / 255)) st =
      .next { st with ret := pack (BitVec.ofNat 8 n) (BitVec.ofNat 8 n) (BitVec.ofNat 8 n) }) ∧
    (∀ (n : Nat) (c : Rat), n < 255 → (n : Rat) / 255 ≤ c → c < ((n : Rat) + 1) / 255 →
      exec (.convert h 0 c) st =
        .next { st with ret := pack (BitVec.ofNat 8 n) (BitVec.ofNat 8 n) (BitVec.ofNat 8 n) }) ∧
    exec (.convert h 0 (999999 / 1000000)) st = .next { st with ret := 0xFEFEFE00#32 } ∧
    exec (.convert h 0 (85 / 255 - 1 / 1000000000)) st = .next { st with ret := 0x54545400#32 }

/-! ## The packed word and the line -/

/-- 30_encoding.md R61, R62: the fields of the packed word, packing and unpacking, and the low byte of every word
CONVERT produces. -/
def Obligations.PackedWordFields : Prop :=
  (∀ r g b : Byte, pack r g b = (zext32 g <<< 24) ||| (zext32 r <<< 16) ||| (zext32 b <<< 8) ∧
    (pack r g b).extractLsb 31 24 = g ∧ (pack r g b).extractLsb 23 16 = r ∧ (pack r g b).extractLsb 15 8 = b ∧
    (pack r g b).extractLsb 7 0 = 0#8) ∧
  (∀ w : Word32, greenOf w = w.extractLsb 31 24 ∧ redOf w = w.extractLsb 23 16 ∧ blueOf w = w.extractLsb 15 8 ∧
    lowOf w = w.extractLsb 7 0 ∧ w = pack (redOf w) (greenOf w) (blueOf w) ||| zext32 (lowOf w)) ∧
  (pack 255 0 0 = 0x00FF0000#32 ∧ pack 0 255 0 = 0xFF000000#32 ∧ pack 0 0 255 = 0x0000FF00#32) ∧
  ∀ (st : State) (h s v : Rat) (w : Word32),
    exec (.convert h s v) st = .next { st with ret := w } → lowOf w = 0

/-- 30_encoding.md R63 and 20_memory.md R43: the line word and the order in which its bits are sent. -/
def Obligations.LineSendsGreenRedBlueMsbFirst : Prop :=
  (∀ w : Word32, line w = greenOf w ++ redOf w ++ blueOf w ∧
    sentBits (line w) = (List.range 24).map (fun n => w.getLsbD (31 - n))) ∧
  line 0x00FF0000#32 = 0x00FF00#24 ∧
  sentBits (line 0x00FF0000#32) = List.replicate 8 false ++ List.replicate 8 true ++ List.replicate 8 false ∧
  ∀ (s : State) (w : Word32) (rest : List Word32), s.live = true → s.queue = w :: rest →
    ∃ t, exec .emit s = .next t ∧ t.out = s.out ++ [greenOf w ++ redOf w ++ blueOf w]

/-- 30_encoding.md R64: CONVERT writes a zero low byte, PUSH takes any, and the line ignores it. -/
def Obligations.LowByteIsIgnoredOnTheLine : Prop :=
  (∀ (policy : RangePolicy) (h s v : Rat) (w : Word32), convert policy h s v = .word w → lowOf w = 0) ∧
  (∀ (s : State) (w : Word32), s.live = true → s.queue.length < s.cfg.qdepth →
    exec (.push w) s = .next { s with queue := s.queue ++ [w] }) ∧
  ∀ (s : State) (w : Word32) (rest : List Word32) (z : Byte), s.live = true →
    ∃ l : Word24, exec .emit { s with queue := w :: rest } = .next { s with queue := rest, out := s.out ++ [l] } ∧
      exec .emit { s with queue := (pack (redOf w) (greenOf w) (blueOf w) ||| zext32 z) :: rest } =
        .next { s with queue := rest, out := s.out ++ [l] }

/-! ## Transaction records -/

/-- 30_encoding.md R66, R67, R68: the decoder names one row for every kind, takes the operands as given, and refuses
the reserved kind and the wrong issuer. -/
def Obligations.DecoderFollowsTheKindTable : Prop :=
  ∀ (a : Agent) (r : Record),
    (∀ h s v : Rat, r.kind = 0b00#2 → a = .host → r.h = .rational h → r.s = .rational s → r.v = .rational v →
      decode a r = .ok (.convert h s v) ∧ refusalOf a r = none) ∧
    (r.kind = 0b01#2 → a = .host → decode a r = .ok (.push r.w) ∧ refusalOf a r = none) ∧
    (r.kind = 0b10#2 → a = .serializer → decode a r = .ok .emit ∧ refusalOf a r = none) ∧
    (r.kind = 0b11#2 → decode a r = .ok .reserved ∧ refusalOf a r = some .reservedKind) ∧
    (r.kind = 0b10#2 → a = .host → refusalOf a r = some .wrongIssuer) ∧
    (r.kind = 0b00#2 ∨ r.kind = 0b01#2 → a = .serializer → refusalOf a r = some .wrongIssuer)

/-- 60_exceptions.md R164, R165: the order of the checks, the mark a refused record leaves, and that a record which
passes them is performed. -/
def Obligations.RefusedRecordMarksAndStops : Prop :=
  (∀ (a : Agent) (r : Record), refusalOf a r =
    if r.kind = 0b11#2 then some .reservedKind
    else if (r.kind = 0b10#2 ∧ a = .host) ∨ (r.kind ≠ 0b10#2 ∧ a = .serializer) then some .wrongIssuer
    else if r.kind = 0b00#2 ∧ ¬ (r.h.isRational = true ∧ r.s.isRational = true ∧ r.v.isRational = true) then
      some .notRational
    else none) ∧
  (∀ (a : Agent) (r : Record) (why : RecordRefusal) (s : State), s.live = true → refusalOf a r = some why →
    issue a r s = .next { s with refused := true } ∧
      ∀ (n : Nat) (t : State), core.run (n + 1) { s with refused := true } ≠ .next t) ∧
  ∀ (a : Agent) (r : Record) (s : State), s.live = true → refusalOf a r = none →
    ∃ i t, decode a r = .ok i ∧ i.wf = true ∧ exec i s = .next t ∧ issue a r s = .next (s.settle a i t)

/-- A record is well formed exactly when the decoder gives an operation for it (30_encoding.md sections 1 and 4). -/
def Obligations.WellFormedRecordsAreTheOnesPerformed : Prop :=
  ∀ (a : Agent) (r : Record), r.wf a = true ↔ ∃ i : Instr, i.wf = true ∧ decode a r = .ok i

/-- Decoding the record of an instruction gives the instruction back, every operand at every value. -/
def Obligations.DecodeOfEncodeIsTheInstruction : Prop :=
  (∀ i : Instr, decode i.issuer (encode i) = .ok i ∧ (i.wf = true → (encode i).wf i.issuer = true)) ∧
  ∀ (a : Agent) (r : Record) (i : Instr), decode a r = .ok i →
    (encode i).kind = r.kind ∧ (i.wf = true → a = i.issuer) ∧
      ∀ w, i = .push w → r.w = w

/-- The records of the kind table, written out, decode to their rows (30_encoding.md section 4). The four
`decodeTableWord` clauses are the model's choice (log entry 2): a table word stands for the record of that kind with a
zero payload, kind 11 placed with the host. -/
def Obligations.WrittenRecordsDecode : Prop :=
  decode .host { kind := 0b00#2, h := .rational 30, s := .rational (1 / 2), v := .rational (1 / 2), w := 0 } =
    .ok (.convert 30 (1 / 2) (1 / 2)) ∧
  decode .host { kind := 0b01#2, h := .nan, s := .nan, v := .nan, w := 0xAABBCCDD#32 } =
    .ok (.push 0xAABBCCDD#32) ∧
  decode .serializer { kind := 0b10#2, h := .nan, s := .nan, v := .nan, w := 0 } = .ok .emit ∧
  decode .host { kind := 0b11#2, h := .nan, s := .nan, v := .nan, w := 0 } = .ok .reserved ∧
  decodeTableWord 8 0 = some (.convert 0 0 0) ∧ decodeTableWord 8 1 = some (.push 0) ∧
  decodeTableWord 8 2 = some .emit ∧ decodeTableWord 8 3 = some .reserved

/-! ## The pixel stream -/

/-- 42_pixel_stream.md R141, R142, R143: PUSH's kind and issuer, when it is enabled, what it writes, that it holds
otherwise, and that an EMIT lifts the hold. -/
def Obligations.PushAppendsOrHolds : Prop :=
  ∀ (s : State) (w : Word32),
    ((encode (.push w)).kind = 0b01#2 ∧ decode .host (encode (.push w)) = .ok (.push w) ∧
      decode .serializer (encode (.push w)) = .error .wrongIssuer) ∧
    (s.pushEnabled = true ↔ s.queue.length < s.cfg.qdepth ∧ s.fault = none ∧ s.refused = false) ∧
    (s.fault = none → s.refused = false → s.queue.length < s.cfg.qdepth →
      exec (.push w) s = .next { s with queue := s.queue ++ [w] }) ∧
    (s.fault = none → s.refused = false → ¬ s.queue.length < s.cfg.qdepth → exec (.push w) s = .next s) ∧
    (s.fault = none → s.refused = false → s.queue.length = s.cfg.qdepth → 1 ≤ s.cfg.qdepth →
      ∃ t, exec .emit s = .next t ∧ exec (.push w) t = .next { t with queue := t.queue ++ [w] })

/-- 42_pixel_stream.md R144, R145: EMIT's kind and issuer, when it is enabled, what it writes, and that an idle
serializer writes nothing. -/
def Obligations.EmitTransmitsTheOldestWord : Prop :=
  ∀ s : State,
    ((encode .emit).kind = 0b10#2 ∧ decode .serializer (encode .emit) = .ok .emit ∧
      decode .host (encode .emit) = .error .wrongIssuer) ∧
    (s.emitEnabled = true ↔ 0 < s.queue.length ∧ s.fault = none ∧ s.refused = false) ∧
    (∀ (w : Word32) (rest : List Word32), s.fault = none → s.refused = false → s.queue = w :: rest →
      exec .emit s = .next { s with queue := rest, out := s.out ++ [w.extractLsb 31 8] }) ∧
    (s.fault = none → s.refused = false → s.queue = [] → exec .emit s = .next s)

/-- The reserved kind sets the refusal mark and changes nothing else (30_encoding.md section 4, 60_exceptions.md
section 2). -/
def Obligations.ReservedKindIsRefused : Prop :=
  ∀ s : State, s.live = true → exec .reserved s = .next { s with refused := true }

/-- 20_memory.md R46: CONVERT may be repeated with the same result; PUSH and EMIT act each time. -/
def Obligations.RepeatedOperations : Prop :=
  (∀ (s t : State) (h sat v : Rat), exec (.convert h sat v) s = .next t → t.fault = none →
    exec (.convert h sat v) t = .next t ∧ t.queue = s.queue ∧ t.out = s.out) ∧
  (∀ (s : State) (w : Word32), s.live = true → s.queue.length + 1 < s.cfg.qdepth →
    ∃ t, exec (.push w) s = .next t ∧ exec (.push w) t = .next { s with queue := s.queue ++ [w, w] }) ∧
  ∀ (s : State) (w : Word32) (rest : List Word32), s.live = true → s.queue = w :: w :: rest →
    ∃ t, exec .emit s = .next t ∧ exec .emit t = .next { s with queue := rest, out := s.out ++ [line w, line w] }

/-! ## Marks, frames and partial effects -/

/-- 10_state.md R26, R27 and 60_exceptions.md R167: a marked state has no further step of any agent, so no step
clears a mark. -/
def Obligations.MarkedStateHasNoStep : Prop :=
  (∀ (s : State) (f : Fault), s.fault = some f → step s = .fault f ∧ ∀ i, exec i s = .fault f) ∧
  (∀ s : State, s.fault = none → s.refused = true →
    step s = .refused .refusedMark ∧ ∀ i, exec i s = .refused .refusedMark) ∧
  (∀ s t : State, step s = .next t → s.fault = none ∧ s.refused = false) ∧
  State.reset.fault = none ∧ State.reset.refused = false

/-- 00_scope.md R10: where nothing is marked every operation has an outcome, and one that holds, faults or is refused
leaves the queue and the line as they are. -/
def Obligations.NoPartialEffect : Prop :=
  (∀ (i : Instr) (s : State), s.live = true → ∃ t, exec i s = .next t) ∧
  (∀ (i : Instr) (s t : State), exec i s = .next t → s.holds i = true → t = s) ∧
  (∀ (i : Instr) (s t : State), exec i s = .next t → t.live = false → t.queue = s.queue ∧ t.out = s.out) ∧
  ∀ (s t : State), step s = .next t → t.live = false → t.queue = s.queue ∧ t.out = s.out

/-- What each instruction leaves unchanged when it answers a next state: all but CONVERT's returned word and fault
mark, PUSH's queue, EMIT's queue and line, and the reserved kind's refusal mark. -/
def Obligations.InstructionFrames : Prop :=
  (∀ (i : Instr) (s t : State), exec i s = .next t →
    t.cfg = s.cfg ∧ t.driver = s.driver ∧ t.repo = s.repo ∧ t.prog = s.prog ∧ t.serRecords = s.serRecords ∧
      t.adc = s.adc ∧ t.sched = s.sched) ∧
  (∀ (h sat v : Rat) (s t : State), exec (.convert h sat v) s = .next t →
    t.queue = s.queue ∧ t.out = s.out ∧ t.refused = s.refused ∧ (t.fault = none ∨ t.ret = s.ret)) ∧
  (∀ (w : Word32) (s t : State), exec (.push w) s = .next t →
    t.out = s.out ∧ t.fault = s.fault ∧ t.refused = s.refused ∧ t.ret = s.ret) ∧
  (∀ s t : State, exec .emit s = .next t → t.fault = s.fault ∧ t.refused = s.refused ∧ t.ret = s.ret) ∧
  ∀ s t : State, exec .reserved s = .next t →
    t.queue = s.queue ∧ t.out = s.out ∧ t.fault = s.fault ∧ t.ret = s.ret

/-! ## Steps -/

/-- A step performs the instruction that the record issued by the scheduled agent decodes to: the turn is taken from
the schedule, the meaning runs, and the agent goes on if the operation completed. -/
def Obligations.StepRunsTheDecodedRecord : Prop :=
  (∀ (s t : State) (r : Record) (i : Instr), s.actionOf s.nextAgent = .request r → decode s.nextAgent r = .ok i →
    exec i s.takeTurn = .next t → step s = .next (s.takeTurn.settle s.nextAgent i t)) ∧
  (∀ (s : State) (i : Instr) (f : Fault), exec i s.takeTurn = .fault f → step s = .fault f) ∧
  (∀ (s : State) (a : Agent) (i : Instr) (t : State), s.settle a i t =
    if s.holds i = true ∨ t.live = false then t else t.agentDone a) ∧
  ∀ (s : State) (a : Agent) (rest : List Agent), s.sched.turns = a :: rest →
    s.nextAgent = a ∧ s.takeTurn = { s with sched := { s.sched with turns := rest } }

/-- The record placed for the next step is the one it performs (the model's own placing, log entry 4, and its reading of
a table word, log entry 2). -/
def Obligations.PlacedRecordRunsNext : Prop :=
  (∀ (s : State) (i : Instr), s.live = true →
    ∃ t, exec i ((s.place i.issuer (encode i)).takeTurn) = .next t ∧
      step (s.place i.issuer (encode i)) = .next ((s.place i.issuer (encode i)).takeTurn.settle i.issuer i t)) ∧
  ∀ (s : State) (nbits w : Nat) (i : Instr), s.live = true → decodeTableWord nbits w = some i →
    ∃ t, exec i ((s.withFetchWord nbits w).takeTurn) = .next t ∧
      step (s.withFetchWord nbits w) = .next ((s.withFetchWord nbits w).takeTurn.settle i.issuer i t)

/-- 10_state.md R25: the line only grows, by at most the oldest word of the queue; the queue is changed by an append or
by taking its head alone, and the configuration by nothing. -/
def Obligations.ConfigurationFixedAndLineOnlyGrows : Prop :=
  ∀ s t : State, step s = .next t →
    t.cfg = s.cfg ∧
    (t.out = s.out ∨ ∃ w rest, s.queue = w :: rest ∧ t.queue = rest ∧ t.out = s.out ++ [line w]) ∧
    (t.queue = s.queue ∨ (∃ w, t.queue = s.queue ++ [w] ∧ s.queue.length < s.cfg.qdepth) ∨
      ∃ w rest, s.queue = w :: rest ∧ t.queue = rest)

/-- 10_state.md section 3 (R24): the queue never holds more than `QDEPTH` words; then having no room is being full
(R23), and PUSH is held exactly when the queue is full. -/
def Obligations.QueueStaysBounded : Prop :=
  (∀ s t : State, s.QueueBounded → step s = .next t → t.QueueBounded) ∧
  ∀ (s : State) (w : Word32), s.QueueBounded → (s.holds (.push w) = true ↔ s.queue.length = s.cfg.qdepth) ∧
    (s.full = true ↔ s.queue.length = s.cfg.qdepth) ∧ (s.holds .emit = true ↔ s.queue.length = 0) ∧
    (s.empty = true ↔ s.queue.length = 0)

/-- 70_reset_and_hazards.md R182 (and section 1): the host after reset, with the block empty and unmarked, and a
configuration that no run changes. -/
def Obligations.ResetStartsTheHostInSample : Prop :=
  (State.reset.repo.phase = .sample ∧ State.reset.repo.pixel = 0 ∧ State.reset.repo.hueAcc = 0) ∧
  (State.reset.queue = [] ∧ State.reset.out = [] ∧ State.reset.fault = none ∧ State.reset.refused = false) ∧
  ∀ (n : Nat) (s t : State), core.run n s = .next t → t.cfg = s.cfg

/-- The state after reset meets the model's invariants. It rests on the model's own reset values (log entry 3): the
frame's saturation and value are zero before the first Sample, and no host variable is listed. -/
def Obligations.ResetMeetsTheInvariants : Prop :=
  State.reset.cfg.admitted ∧ State.reset.QueueBounded ∧ State.reset.RepositoryRun ∧
  wfVars State.reset.prog.vars = true

/-- 42_pixel_stream.md R148 (10_state.md section 3, 20_memory.md section 4): over any run, the words transmitted and then the
queue are the words that were queued and then those accepted, in order, and the line holds the significant bits of
the words transmitted. -/
def Obligations.NoWordLostDuplicatedOrReordered : Prop :=
  ∀ (n : Nat) (s t : State), core.run n s = .next t →
    s.queue ++ acceptedIn n s = takenIn n s ++ t.queue ∧ t.out = s.out ++ (takenIn n s).map line ∧
    (s.queue = [] → s.out = [] → t.out <+: (acceptedIn n s).map line)

/-- 42_pixel_stream.md R149: what appears on the line does not depend on the queue's depth, nor on the schedule; with
depth `d` the host gets at most `d` PUSHes ahead of the EMITs. -/
def Obligations.LineIsIndependentOfDepthAndSchedule : Prop :=
  (∀ (n m d : Nat) (c : Schedule) (s t u : State), core.run n s = .next t →
    core.run m { s with cfg := { s.cfg with qdepth := d }, sched := c } = .next u →
    t.out <+: u.out ∨ u.out <+: t.out) ∧
  ∀ (n : Nat) (s t : State), s.queue = [] → core.run n s = .next t →
    (acceptedIn n s).length ≤ (takenIn n s).length + s.cfg.qdepth

/-- 42_pixel_stream.md section 3 (R146): in every infinite run, the words of the queue all reach the line, and a PUSH
that the host has requested is accepted, whichever host drives the block. That every agent gets its turns is the model's
schedule (log entry 5). -/
def Obligations.EveryAcceptedWordIsTransmitted : Prop :=
  ∀ s : State, s.serRecords = [] → 1 ≤ s.cfg.qdepth → (∀ n, ∃ t, core.run n s = .next t) →
    (∃ n t, core.run n s = .next t ∧ s.out ++ s.queue.map line <+: t.out) ∧
    ∀ (r : Record) (w : Word32), s.hostAction = .request r → decode .host r = .ok (.push w) →
      ∃ n, acceptedIn n s = [w]

/-- 42_pixel_stream.md R147: the serializer's turn takes and transmits the same, whatever the host is doing. -/
def Obligations.SerializerIgnoresTheHost : Prop :=
  ∀ (s t : State) (d : Driver) (repo : RepoHost) (prog : RecordHost) (adc : Reader) (ret : Word32),
    s.nextAgent = .serializer → step s = .next t →
    step { s with driver := d, repo := repo, prog := prog, adc := adc, ret := ret } =
      .next { t with driver := d, repo := repo, prog := prog, adc := adc, ret := ret }

/-- 20_memory.md section 4 and 10_state.md section 2: the host learns nothing of the queue and the line but whether
its PUSH has room. -/
def Obligations.HostSeesOnlyWhetherThereIsRoom : Prop :=
  ∀ (s t : State) (q : List Word32) (o : List Word24), step s = .next t →
    ({ s with queue := q, out := o } : State).hasRoom = s.hasRoom →
    ∃ u, step { s with queue := q, out := o } = .next u ∧
      u.repo = t.repo ∧ u.prog = t.prog ∧ u.driver = t.driver ∧ u.ret = t.ret ∧ u.adc = t.adc ∧
      u.sched = t.sched ∧ u.fault = t.fault ∧ u.refused = t.refused

/-! ## The hosts -/

/-- 41_host_environment.md R121, R122: the Sample step draws readings in 0..4095 and calibrates them, and what the
calibration gives over that range. -/
def Obligations.SampleCalibratesTheReadings : Prop :=
  (∀ s : State, s.cfg.admitted → s.live = true → s.driver = .repository → s.repo.phase = .sample →
    s.nextAgent = .host →
    ∃ t, ∃ rv rs rh : Nat, rv ≤ 4095 ∧ rs ≤ 4095 ∧ rh ≤ 4095 ∧ step s = .next t ∧
      t.repo = { s.repo with
        phase := .render, pixel := 0, hueAcc := 0, val := ((rv : Rat) - 12) / 4083, sat := ((rs : Rat) - 12) / 4083,
        hue := if s.cfg.hueMode = .sensor then 360 * ((rh : Rat) - 12) / 4083 else s.repo.hue } ∧
      t.queue = s.queue ∧ t.out = s.out ∧ t.cfg = s.cfg ∧ t.fault = none ∧ t.refused = false) ∧
  (∀ (c : Cfg) (x : Nat), c.admitted → x ≤ 4095 →
    -12 / 4083 ≤ calibrate c x ∧ calibrate c x ≤ 1 ∧
    -4320 / 4083 ≤ calibrateHue c x ∧ calibrateHue c x ≤ 360 ∧ (calibrate c x < 0 ↔ x ≤ 11) ∧
    (x = 12 → calibrate c x = 0) ∧ (x = 4095 → calibrate c x = 1 ∧ calibrateHue c x = 360)) ∧
  ∀ (c : Cfg) (r : Reader), c.admitted → r.peek c ≤ 4095

/-- 41_host_environment.md R133: the phases of the repository's host, row by row, at its turn. -/
def Obligations.RepositoryHostPhases : Prop :=
  ∀ s : State, s.live = true → s.driver = .repository → s.nextAgent = .host →
    (s.repo.phase = .sample → ∃ t, step s = .next t ∧ t.repo.phase = .render ∧ t.repo.pixel = 0 ∧
      t.repo.hueAcc = 0 ∧ t.queue = s.queue ∧ t.out = s.out) ∧
    (∀ w, s.repo.phase = .render → s.repo.pixel < s.cfg.nLeds →
      convert s.cfg.rangePolicy (pixelHue s.cfg s.repo) s.repo.sat s.repo.val = .word w →
      step s = .next { s.takeTurn with ret := w, repo := { s.repo with phase := .awaitPush, word := w } }) ∧
    (s.repo.phase = .awaitPush → s.queue.length < s.cfg.qdepth →
      step s = .next { s.takeTurn with
        queue := s.queue ++ [s.repo.word],
        repo := { s.repo with
          phase := .render, pixel := s.repo.pixel + 1, hueAcc := s.repo.hueAcc + 360 / s.cfg.nLeds } }) ∧
    (s.repo.phase = .awaitPush → ¬ s.queue.length < s.cfg.qdepth → step s = .next s.takeTurn) ∧
    (s.repo.phase = .render → s.repo.pixel = s.cfg.nLeds →
      step s = .next { s.takeTurn with repo := { s.repo with phase := .pace } }) ∧
    (s.repo.phase = .pace → step s = .next { s.takeTurn with repo := { s.repo with phase := .sample } })

/-- 41_host_environment.md R124, R125: the hue accumulator holds `k * 360 / N` at pixel `k`, so that the sweep hues
are the multiples of 45/8 below 360. -/
def Obligations.HueAccumulatorMatchesThePixel : Prop :=
  (∀ s t : State, s.repo.hueAcc = s.repo.pixel * (360 / s.cfg.nLeds) → step s = .next t →
    t.repo.hueAcc = t.repo.pixel * (360 / t.cfg.nLeds)) ∧
  ∀ s : State, s.RepositoryRun → s.repo.pixel < 64 →
    (s.cfg.hueMode = .sweep → pixelHue s.cfg s.repo = s.repo.pixel * (45 / 8) ∧ 0 ≤ pixelHue s.cfg s.repo ∧
      pixelHue s.cfg s.repo < 360) ∧
    (s.cfg.hueMode = .sensor → pixelHue s.cfg s.repo = s.repo.hue)

/-- 41_host_environment.md R132: driven by the repository's host, the machine always has a next state, with no fault
and no refusal, and it stays so. -/
def Obligations.RepositoryHostNeverFaults : Prop :=
  (∀ s : State, s.RepositoryRun → ∃ t, step s = .next t ∧ t.RepositoryRun) ∧
  ∀ (n : Nat) (s : State), s.RepositoryRun → ∃ t, core.run n s = .next t ∧ t.fault = none ∧ t.refused = false

/-- 41_host_environment.md R127: a frame is exactly the PUSHes of its pixels' words, in pixel order, each the CONVERT
of the frame's one saturation and value at the pixel's hue, and it ends at `N_LEDS` pixels. -/
def Obligations.FrameIsStreamedInPixelOrder : Prop :=
  ∀ (n : Nat) (s t : State), s.RepositoryRun → s.repo.phase = .sample → core.run n s = .next t →
    framesIn n s = 1 →
    (acceptedIn n s).map Converted.word = (List.range t.repo.pixel).map t.pixelConverted ∧
    (t.repo.phase = .pace ∨ t.repo.phase = .sample → t.repo.pixel = t.cfg.nLeds)

/-- 30_encoding.md R71: SHOW is CONVERT into the temporary and PUSH of it, and pushes the converted word. -/
def Obligations.ShowConvertsThenPushes : Prop :=
  (∀ h s v : Rat, expandLine (.show h s v) =
    [.convert .temp (.rational h) (.rational s) (.rational v), .push .temp]) ∧
  ∀ (s : State) (h sat v : Rat) (w : Word32) (rest : List HostOp) (turns : List Agent), s.live = true →
    s.driver = .records → s.prog.program = expandLine (.show h sat v) ++ rest →
    s.sched.turns = .host :: .host :: turns → convert s.cfg.rangePolicy h sat v = .word w →
    s.queue.length < s.cfg.qdepth →
    core.run 2 s = .next { s with
      ret := w, queue := s.queue ++ [w], prog := { s.prog with program := rest, temp := w },
      sched := { s.sched with turns := turns } }

/-- The host variables of a transaction program (30_encoding.md section 5): CONVERT into `wN`, then PUSH of `wN`,
pushes the converted word, and every other variable keeps its value. -/
def Obligations.VariableCarriesTheConvertedWord : Prop :=
  ∀ (s : State) (n : Nat) (h sat v : Rat) (w : Word32) (rest : List HostOp) (turns : List Agent), s.live = true →
    s.driver = .records →
    s.prog.program = expandLine (.convert n h sat v) ++ expandLine (.pushVar n) ++ rest →
    s.sched.turns = .host :: .host :: turns → convert s.cfg.rangePolicy h sat v = .word w →
    s.queue.length < s.cfg.qdepth →
    ∃ t, core.run 2 s = .next t ∧ t.queue = s.queue ++ [w] ∧ t.prog.program = rest ∧
      t.prog.getVar (.named n) = w ∧ ∀ x, x ≠ .named n → t.prog.getVar x = s.prog.getVar x

/-- Every step keeps the host's variables in their canonical form. -/
def Obligations.HostVariablesStayCanonical : Prop :=
  ∀ s t : State, wfVars s.prog.vars = true → step s = .next t → wfVars t.prog.vars = true

/-- The assembly text of 30_encoding.md section 5, form by form. The last three clauses are the model's choice (log
entry 14): text that is only a comment gives no line, and a word literal of fewer than eight digits or a fraction with
a zero denominator is no text of a line. -/
def Obligations.AssemblyTextReads : Prop :=
  readLine "CONVERT w3, -30, 2036/4083, 0.5  ; a comment".toList = some [.convert 3 (-30) (2036 / 4083) (1 / 2)] ∧
  readLine "PUSH    w3".toList = some [.pushVar 3] ∧
  readLine "PUSH    0x778899AB".toList = some [.pushWord 0x778899AB#32] ∧
  readLine "EMIT  ; a serializer step".toList = some [.emit] ∧
  readLine "SHOW 45/8, 1, 1".toList = some [.show (45 / 8) 1 1] ∧
  readLine "; only a comment".toList = some [] ∧ readLine "PUSH 0x12".toList = none ∧
  readLine "CONVERT w0, 1/0, 1, 1".toList = none
end

