-- ==== Sys2Proof/Laws/Convert.lean ====
section
/-! SUPPORT. The converter's stages, each said once: the arms of the multiplexer, the rounding, and what scaling and
packing give. -/

namespace Sys2Proof.Machine

theorem trunc_of_nonneg {x : Rat} (h : 0 ≤ x) : trunc x = ⌊x⌋ := by simp [trunc, h]

theorem trunc_of_neg {x : Rat} (h : x < 0) : trunc x = ⌈x⌉ := by simp [trunc, not_le.mpr h]

/-- The default arm: every selector outside 0..4. -/
theorem sectorMux_default {i : Int} (h : i < 0 ∨ 5 ≤ i) (v p q t : Rat) : sectorMux i v p q t = ⟨v, p, q⟩ := by
  unfold sectorMux
  split <;> first | rfl | omega

/-- Each output of the multiplexer is one of its candidates. -/
theorem sectorMux_mem (i : Int) (v p q t : Rat) (P : Rat → Prop) (hv : P v) (hp : P p) (hq : P q) (ht : P t) :
    P (sectorMux i v p q t).r ∧ P (sectorMux i v p q t).g ∧ P (sectorMux i v p q t).b := by
  unfold sectorMux
  split <;> simp_all

theorem firstOutside_none {x : Rgb} (hr : inWindow x.r) (hg : inWindow x.g) (hb : inWindow x.b) :
    firstOutside x = none := by
  simp [firstOutside, hr, hg, hb]

theorem clamp8_of_inWindow {c : Rat} (h : inWindow c) : clamp8 c = scale8 c := if_pos h

/-- Inside the window the policy does not matter. -/
theorem convert_inside {policy : RangePolicy} {h s v : Rat} (hr : inWindow (components h s v).r)
    (hg : inWindow (components h s v).g) (hb : inWindow (components h s v).b) :
    convert policy h s v =
      .word (pack (scale8 (components h s v).r) (scale8 (components h s v).g) (scale8 (components h s v).b)) := by
  cases policy with
  | fault => simp only [convert, scaleAndPack, firstOutside_none hr hg hb]
  | clamp => simp only [convert, scaleAndPack, clamp8_of_inWindow hr, clamp8_of_inWindow hg, clamp8_of_inWindow hb]

end Sys2Proof.Machine
end

