-- ==== Sys2Proof/Laws/State.lean ====
section
/-! SUPPORT. What each update of the state leaves in each field. -/

namespace Sys2Proof.Machine

@[simp] theorem State.raiseFault_cfg (s : State) (f : Fault) : (s.raiseFault f).cfg = s.cfg := rfl
@[simp] theorem State.raiseFault_queue (s : State) (f : Fault) : (s.raiseFault f).queue = s.queue := rfl
@[simp] theorem State.raiseFault_out (s : State) (f : Fault) : (s.raiseFault f).out = s.out := rfl
@[simp] theorem State.raiseFault_fault (s : State) (f : Fault) : (s.raiseFault f).fault = some f := rfl
@[simp] theorem State.raiseFault_refused (s : State) (f : Fault) : (s.raiseFault f).refused = s.refused := rfl
@[simp] theorem State.raiseFault_ret (s : State) (f : Fault) : (s.raiseFault f).ret = s.ret := rfl
@[simp] theorem State.raiseFault_driver (s : State) (f : Fault) : (s.raiseFault f).driver = s.driver := rfl
@[simp] theorem State.raiseFault_repo (s : State) (f : Fault) : (s.raiseFault f).repo = s.repo := rfl
@[simp] theorem State.raiseFault_prog (s : State) (f : Fault) : (s.raiseFault f).prog = s.prog := rfl
@[simp] theorem State.raiseFault_serRecords (s : State) (f : Fault) :
    (s.raiseFault f).serRecords = s.serRecords := rfl
@[simp] theorem State.raiseFault_adc (s : State) (f : Fault) : (s.raiseFault f).adc = s.adc := rfl
@[simp] theorem State.raiseFault_sched (s : State) (f : Fault) : (s.raiseFault f).sched = s.sched := rfl

@[simp] theorem State.refuse_cfg (s : State) : (s.refuse).cfg = s.cfg := rfl
@[simp] theorem State.refuse_queue (s : State) : (s.refuse).queue = s.queue := rfl
@[simp] theorem State.refuse_out (s : State) : (s.refuse).out = s.out := rfl
@[simp] theorem State.refuse_fault (s : State) : (s.refuse).fault = s.fault := rfl
@[simp] theorem State.refuse_refused (s : State) : (s.refuse).refused = true := rfl
@[simp] theorem State.refuse_ret (s : State) : (s.refuse).ret = s.ret := rfl
@[simp] theorem State.refuse_driver (s : State) : (s.refuse).driver = s.driver := rfl
@[simp] theorem State.refuse_repo (s : State) : (s.refuse).repo = s.repo := rfl
@[simp] theorem State.refuse_prog (s : State) : (s.refuse).prog = s.prog := rfl
@[simp] theorem State.refuse_serRecords (s : State) : (s.refuse).serRecords = s.serRecords := rfl
@[simp] theorem State.refuse_adc (s : State) : (s.refuse).adc = s.adc := rfl
@[simp] theorem State.refuse_sched (s : State) : (s.refuse).sched = s.sched := rfl

@[simp] theorem State.enqueue_cfg (s : State) (w : Word32) : (s.enqueue w).cfg = s.cfg := rfl
@[simp] theorem State.enqueue_queue (s : State) (w : Word32) : (s.enqueue w).queue = s.queue ++ [w] := rfl
@[simp] theorem State.enqueue_out (s : State) (w : Word32) : (s.enqueue w).out = s.out := rfl
@[simp] theorem State.enqueue_fault (s : State) (w : Word32) : (s.enqueue w).fault = s.fault := rfl
@[simp] theorem State.enqueue_refused (s : State) (w : Word32) : (s.enqueue w).refused = s.refused := rfl
@[simp] theorem State.enqueue_ret (s : State) (w : Word32) : (s.enqueue w).ret = s.ret := rfl
@[simp] theorem State.enqueue_driver (s : State) (w : Word32) : (s.enqueue w).driver = s.driver := rfl
@[simp] theorem State.enqueue_repo (s : State) (w : Word32) : (s.enqueue w).repo = s.repo := rfl
@[simp] theorem State.enqueue_prog (s : State) (w : Word32) : (s.enqueue w).prog = s.prog := rfl
@[simp] theorem State.enqueue_serRecords (s : State) (w : Word32) :
    (s.enqueue w).serRecords = s.serRecords := rfl
@[simp] theorem State.enqueue_adc (s : State) (w : Word32) : (s.enqueue w).adc = s.adc := rfl
@[simp] theorem State.enqueue_sched (s : State) (w : Word32) : (s.enqueue w).sched = s.sched := rfl

@[simp] theorem State.transmit_cfg (s : State) (w : Word32) (rest : List Word32) :
    (s.transmit w rest).cfg = s.cfg := rfl
@[simp] theorem State.transmit_queue (s : State) (w : Word32) (rest : List Word32) :
    (s.transmit w rest).queue = rest := rfl
@[simp] theorem State.transmit_out (s : State) (w : Word32) (rest : List Word32) :
    (s.transmit w rest).out = s.out ++ [line w] := rfl
@[simp] theorem State.transmit_fault (s : State) (w : Word32) (rest : List Word32) :
    (s.transmit w rest).fault = s.fault := rfl
@[simp] theorem State.transmit_refused (s : State) (w : Word32) (rest : List Word32) :
    (s.transmit w rest).refused = s.refused := rfl
@[simp] theorem State.transmit_ret (s : State) (w : Word32) (rest : List Word32) :
    (s.transmit w rest).ret = s.ret := rfl
@[simp] theorem State.transmit_driver (s : State) (w : Word32) (rest : List Word32) :
    (s.transmit w rest).driver = s.driver := rfl
@[simp] theorem State.transmit_repo (s : State) (w : Word32) (rest : List Word32) :
    (s.transmit w rest).repo = s.repo := rfl
@[simp] theorem State.transmit_prog (s : State) (w : Word32) (rest : List Word32) :
    (s.transmit w rest).prog = s.prog := rfl
@[simp] theorem State.transmit_serRecords (s : State) (w : Word32) (rest : List Word32) :
    (s.transmit w rest).serRecords = s.serRecords := rfl
@[simp] theorem State.transmit_adc (s : State) (w : Word32) (rest : List Word32) :
    (s.transmit w rest).adc = s.adc := rfl
@[simp] theorem State.transmit_sched (s : State) (w : Word32) (rest : List Word32) :
    (s.transmit w rest).sched = s.sched := rfl

@[simp] theorem State.returnWord_cfg (s : State) (w : Word32) : (s.returnWord w).cfg = s.cfg := rfl
@[simp] theorem State.returnWord_queue (s : State) (w : Word32) : (s.returnWord w).queue = s.queue := rfl
@[simp] theorem State.returnWord_out (s : State) (w : Word32) : (s.returnWord w).out = s.out := rfl
@[simp] theorem State.returnWord_fault (s : State) (w : Word32) : (s.returnWord w).fault = s.fault := rfl
@[simp] theorem State.returnWord_refused (s : State) (w : Word32) :
    (s.returnWord w).refused = s.refused := rfl
@[simp] theorem State.returnWord_ret (s : State) (w : Word32) : (s.returnWord w).ret = w := rfl
@[simp] theorem State.returnWord_driver (s : State) (w : Word32) : (s.returnWord w).driver = s.driver := rfl
@[simp] theorem State.returnWord_repo (s : State) (w : Word32) : (s.returnWord w).repo = s.repo := rfl
@[simp] theorem State.returnWord_prog (s : State) (w : Word32) : (s.returnWord w).prog = s.prog := rfl
@[simp] theorem State.returnWord_serRecords (s : State) (w : Word32) :
    (s.returnWord w).serRecords = s.serRecords := rfl
@[simp] theorem State.returnWord_adc (s : State) (w : Word32) : (s.returnWord w).adc = s.adc := rfl
@[simp] theorem State.returnWord_sched (s : State) (w : Word32) : (s.returnWord w).sched = s.sched := rfl

@[simp] theorem State.takeTurn_cfg (s : State) : (s.takeTurn).cfg = s.cfg := rfl
@[simp] theorem State.takeTurn_queue (s : State) : (s.takeTurn).queue = s.queue := rfl
@[simp] theorem State.takeTurn_out (s : State) : (s.takeTurn).out = s.out := rfl
@[simp] theorem State.takeTurn_fault (s : State) : (s.takeTurn).fault = s.fault := rfl
@[simp] theorem State.takeTurn_refused (s : State) : (s.takeTurn).refused = s.refused := rfl
@[simp] theorem State.takeTurn_ret (s : State) : (s.takeTurn).ret = s.ret := rfl
@[simp] theorem State.takeTurn_driver (s : State) : (s.takeTurn).driver = s.driver := rfl
@[simp] theorem State.takeTurn_repo (s : State) : (s.takeTurn).repo = s.repo := rfl
@[simp] theorem State.takeTurn_prog (s : State) : (s.takeTurn).prog = s.prog := rfl
@[simp] theorem State.takeTurn_serRecords (s : State) : (s.takeTurn).serRecords = s.serRecords := rfl
@[simp] theorem State.takeTurn_adc (s : State) : (s.takeTurn).adc = s.adc := rfl
@[simp] theorem State.takeTurn_sched (s : State) :
    (s.takeTurn).sched = { s.sched.drawn with turns := s.sched.drawn.turns.tail } := rfl

@[simp] theorem State.sampleStep_cfg (s : State) : (s.sampleStep).cfg = s.cfg := rfl
@[simp] theorem State.sampleStep_queue (s : State) : (s.sampleStep).queue = s.queue := rfl
@[simp] theorem State.sampleStep_out (s : State) : (s.sampleStep).out = s.out := rfl
@[simp] theorem State.sampleStep_fault (s : State) : (s.sampleStep).fault = s.fault := rfl
@[simp] theorem State.sampleStep_refused (s : State) : (s.sampleStep).refused = s.refused := rfl
@[simp] theorem State.sampleStep_ret (s : State) : (s.sampleStep).ret = s.ret := rfl
@[simp] theorem State.sampleStep_driver (s : State) : (s.sampleStep).driver = s.driver := rfl
@[simp] theorem State.sampleStep_repo (s : State) : (s.sampleStep).repo = sampleRepo s.cfg s.adc s.repo := rfl
@[simp] theorem State.sampleStep_prog (s : State) : (s.sampleStep).prog = s.prog := rfl
@[simp] theorem State.sampleStep_serRecords (s : State) : (s.sampleStep).serRecords = s.serRecords := rfl
@[simp] theorem State.sampleStep_adc (s : State) : (s.sampleStep).adc = sampleReader s.cfg s.adc := rfl
@[simp] theorem State.sampleStep_sched (s : State) : (s.sampleStep).sched = s.sched := rfl

@[simp] theorem State.endFrameStep_cfg (s : State) : (s.endFrameStep).cfg = s.cfg := rfl
@[simp] theorem State.endFrameStep_queue (s : State) : (s.endFrameStep).queue = s.queue := rfl
@[simp] theorem State.endFrameStep_out (s : State) : (s.endFrameStep).out = s.out := rfl
@[simp] theorem State.endFrameStep_fault (s : State) : (s.endFrameStep).fault = s.fault := rfl
@[simp] theorem State.endFrameStep_refused (s : State) : (s.endFrameStep).refused = s.refused := rfl
@[simp] theorem State.endFrameStep_ret (s : State) : (s.endFrameStep).ret = s.ret := rfl
@[simp] theorem State.endFrameStep_driver (s : State) : (s.endFrameStep).driver = s.driver := rfl
@[simp] theorem State.endFrameStep_repo (s : State) :
    (s.endFrameStep).repo = { s.repo with phase := .pace } := rfl
@[simp] theorem State.endFrameStep_prog (s : State) : (s.endFrameStep).prog = s.prog := rfl
@[simp] theorem State.endFrameStep_serRecords (s : State) : (s.endFrameStep).serRecords = s.serRecords := rfl
@[simp] theorem State.endFrameStep_adc (s : State) : (s.endFrameStep).adc = s.adc := rfl
@[simp] theorem State.endFrameStep_sched (s : State) : (s.endFrameStep).sched = s.sched := rfl

@[simp] theorem State.paceStep_cfg (s : State) : (s.paceStep).cfg = s.cfg := rfl
@[simp] theorem State.paceStep_queue (s : State) : (s.paceStep).queue = s.queue := rfl
@[simp] theorem State.paceStep_out (s : State) : (s.paceStep).out = s.out := rfl
@[simp] theorem State.paceStep_fault (s : State) : (s.paceStep).fault = s.fault := rfl
@[simp] theorem State.paceStep_refused (s : State) : (s.paceStep).refused = s.refused := rfl
@[simp] theorem State.paceStep_ret (s : State) : (s.paceStep).ret = s.ret := rfl
@[simp] theorem State.paceStep_driver (s : State) : (s.paceStep).driver = s.driver := rfl
@[simp] theorem State.paceStep_repo (s : State) : (s.paceStep).repo = { s.repo with phase := .sample } := rfl
@[simp] theorem State.paceStep_prog (s : State) : (s.paceStep).prog = s.prog := rfl
@[simp] theorem State.paceStep_serRecords (s : State) : (s.paceStep).serRecords = s.serRecords := rfl
@[simp] theorem State.paceStep_adc (s : State) : (s.paceStep).adc = s.adc := rfl
@[simp] theorem State.paceStep_sched (s : State) : (s.paceStep).sched = s.sched := rfl

section BySplit
variable (s : State)

@[simp] theorem State.agentDone_cfg (a : Agent) : (s.agentDone a).cfg = s.cfg := by
  unfold State.agentDone; split <;> rfl
@[simp] theorem State.agentDone_queue (a : Agent) : (s.agentDone a).queue = s.queue := by
  unfold State.agentDone; split <;> rfl
@[simp] theorem State.agentDone_out (a : Agent) : (s.agentDone a).out = s.out := by
  unfold State.agentDone; split <;> rfl
@[simp] theorem State.agentDone_fault (a : Agent) : (s.agentDone a).fault = s.fault := by
  unfold State.agentDone; split <;> rfl
@[simp] theorem State.agentDone_refused (a : Agent) : (s.agentDone a).refused = s.refused := by
  unfold State.agentDone; split <;> rfl
@[simp] theorem State.agentDone_ret (a : Agent) : (s.agentDone a).ret = s.ret := by
  unfold State.agentDone; split <;> rfl
@[simp] theorem State.agentDone_driver (a : Agent) : (s.agentDone a).driver = s.driver := by
  unfold State.agentDone; split <;> rfl
@[simp] theorem State.agentDone_adc (a : Agent) : (s.agentDone a).adc = s.adc := by
  unfold State.agentDone; split <;> rfl
@[simp] theorem State.agentDone_sched (a : Agent) : (s.agentDone a).sched = s.sched := by
  unfold State.agentDone; split <;> rfl

@[simp] theorem State.settle_cfg (a : Agent) (i : Instr) (t : State) : (s.settle a i t).cfg = t.cfg := by
  unfold State.settle; split <;> simp
@[simp] theorem State.settle_queue (a : Agent) (i : Instr) (t : State) : (s.settle a i t).queue = t.queue := by
  unfold State.settle; split <;> simp
@[simp] theorem State.settle_out (a : Agent) (i : Instr) (t : State) : (s.settle a i t).out = t.out := by
  unfold State.settle; split <;> simp
@[simp] theorem State.settle_fault (a : Agent) (i : Instr) (t : State) : (s.settle a i t).fault = t.fault := by
  unfold State.settle; split <;> simp
@[simp] theorem State.settle_refused (a : Agent) (i : Instr) (t : State) : (s.settle a i t).refused = t.refused := by
  unfold State.settle; split <;> simp
@[simp] theorem State.settle_ret (a : Agent) (i : Instr) (t : State) : (s.settle a i t).ret = t.ret := by
  unfold State.settle; split <;> simp
@[simp] theorem State.settle_driver (a : Agent) (i : Instr) (t : State) : (s.settle a i t).driver = t.driver := by
  unfold State.settle; split <;> simp
@[simp] theorem State.settle_adc (a : Agent) (i : Instr) (t : State) : (s.settle a i t).adc = t.adc := by
  unfold State.settle; split <;> simp
@[simp] theorem State.settle_sched (a : Agent) (i : Instr) (t : State) : (s.settle a i t).sched = t.sched := by
  unfold State.settle; split <;> simp

end BySplit

end Sys2Proof.Machine
end

