-- ==== Sys2Proof/Laws/Ops.lean ====
section
/-! SUPPORT. What the shared operations can do, each said once: the marks, the conditions of the queue, and the
host's variables. -/

namespace Sys2Proof.Machine

theorem State.live_iff (s : State) : s.live = true ↔ s.fault = none ∧ s.refused = false := by
  simp [State.live]

theorem State.hasRoom_iff (s : State) : s.hasRoom = true ↔ s.queue.length < s.cfg.qdepth := by
  simp [State.hasRoom]

theorem State.empty_iff (s : State) : s.empty = true ↔ s.queue = [] := by
  simp [State.empty]

theorem whenLive_of_live {s : State} (h : s.live = true) (k : Result) : whenLive s k = k := by
  obtain ⟨hf, hr⟩ := s.live_iff.mp h
  simp [whenLive, hf, hr]

/-- An operation that answers a next state was asked in a live state and is that operation's own. -/
theorem whenLive_next {s t : State} {k : Result} (h : whenLive s k = .next t) : s.live = true ∧ k = .next t := by
  unfold whenLive at h
  split at h
  · cases h
  · next hf =>
    split at h
    · cases h
    · next hr => exact ⟨s.live_iff.mpr ⟨hf, by simpa using hr⟩, h⟩

theorem whenLive_fault {s : State} {f : Fault} (h : s.fault = some f) (k : Result) : whenLive s k = .fault f := by
  simp [whenLive, h]

theorem whenLive_refused {s : State} (hf : s.fault = none) (hr : s.refused = true) (k : Result) :
    whenLive s k = .refused .refusedMark := by
  simp [whenLive, hf, hr]

@[simp] theorem State.takeTurn_live (s : State) : s.takeTurn.live = s.live := rfl

@[simp] theorem State.takeTurn_hasRoom (s : State) : s.takeTurn.hasRoom = s.hasRoom := rfl

@[simp] theorem State.takeTurn_empty (s : State) : s.takeTurn.empty = s.empty := rfl

@[simp] theorem State.enqueue_live (s : State) (w : Word32) : (s.enqueue w).live = s.live := rfl

@[simp] theorem State.transmit_live (s : State) (w : Word32) (rest : List Word32) :
    (s.transmit w rest).live = s.live := rfl

@[simp] theorem State.returnWord_live (s : State) (w : Word32) : (s.returnWord w).live = s.live := rfl

@[simp] theorem State.raiseFault_live (s : State) (f : Fault) : (s.raiseFault f).live = false := rfl

@[simp] theorem State.refuse_live (s : State) : s.refuse.live = false := by simp [State.live]

@[simp] theorem State.agentDone_live (s : State) (a : Agent) : (s.agentDone a).live = s.live := by
  simp [State.live]

/-! The host's variables. -/

theorem readVar_dropVar (vs : List (Nat × Word32)) (m n : Nat) :
    readVar (dropVar vs m) n = if m = n then 0 else readVar vs n := by
  induction vs with
  | nil => simp [dropVar, readVar]
  | cons e vs ih =>
    obtain ⟨k, u⟩ := e
    simp only [dropVar]
    split
    · next hk => subst hk; rw [ih]; simp only [readVar]; split <;> simp_all
    · next hk => simp only [readVar, ih]; split <;> split <;> simp_all

theorem readVar_insertVar (vs : List (Nat × Word32)) (m n : Nat) (w : Word32) (h : ∀ e ∈ vs, e.1 ≠ m) :
    readVar (insertVar vs m w) n = if m = n then w else readVar vs n := by
  induction vs with
  | nil => simp [insertVar, readVar]
  | cons e vs ih =>
    obtain ⟨k, u⟩ := e
    have hk : k ≠ m := h (k, u) (by simp)
    simp only [insertVar]
    split
    · simp [readVar]
    · simp only [readVar, ih fun e he => h e (by simp [he])]
      split <;> split <;> simp_all

theorem mem_dropVar {vs : List (Nat × Word32)} {m : Nat} {e : Nat × Word32} :
    e ∈ dropVar vs m ↔ e ∈ vs ∧ e.1 ≠ m := by
  induction vs with
  | nil => simp [dropVar]
  | cons x vs ih =>
    obtain ⟨k, u⟩ := x
    simp only [dropVar]
    split
    · next hk => subst hk; rw [ih, List.mem_cons]; aesop
    · next hk => rw [List.mem_cons, List.mem_cons, ih]; aesop

theorem mem_insertVar {vs : List (Nat × Word32)} {m : Nat} {w : Word32} {e : Nat × Word32} :
    e ∈ insertVar vs m w ↔ e = (m, w) ∨ e ∈ vs := by
  induction vs with
  | nil => simp [insertVar]
  | cons x vs ih =>
    obtain ⟨k, u⟩ := x
    simp only [insertVar]
    split <;> simp_all
    tauto

/-- The canonical form as a pairwise order. -/
theorem risingVars_iff (vs : List (Nat × Word32)) :
    risingVars vs = true ↔ vs.Pairwise fun a b => a.1 < b.1 := by
  induction vs with
  | nil => simp [risingVars]
  | cons x vs ih =>
    cases vs with
    | nil => simp [risingVars]
    | cons y vs =>
      simp only [risingVars, Bool.and_eq_true, decide_eq_true_eq, ih, List.pairwise_cons, List.mem_cons,
        forall_eq_or_imp]
      constructor
      · rintro ⟨h, hy, hp⟩
        exact ⟨⟨h, fun z hz => h.trans (hy z hz)⟩, hy, hp⟩
      · rintro ⟨⟨h, -⟩, hy, hp⟩
        exact ⟨h, hy, hp⟩

theorem pairwise_dropVar {vs : List (Nat × Word32)} (m : Nat) (h : vs.Pairwise fun a b => a.1 < b.1) :
    (dropVar vs m).Pairwise fun a b => a.1 < b.1 := by
  induction vs with
  | nil => simp [dropVar]
  | cons x vs ih =>
    obtain ⟨k, u⟩ := x
    rw [List.pairwise_cons] at h
    simp only [dropVar]
    split
    · exact ih h.2
    · exact List.pairwise_cons.mpr ⟨fun e he => h.1 e (mem_dropVar.mp he).1, ih h.2⟩

theorem pairwise_insertVar {vs : List (Nat × Word32)} {m : Nat} (w : Word32) (hm : ∀ e ∈ vs, e.1 ≠ m)
    (h : vs.Pairwise fun a b => a.1 < b.1) : (insertVar vs m w).Pairwise fun a b => a.1 < b.1 := by
  induction vs with
  | nil => simp [insertVar]
  | cons x vs ih =>
    obtain ⟨k, u⟩ := x
    have hk : k ≠ m := hm (k, u) (by simp)
    have h' := List.pairwise_cons.mp h
    simp only [insertVar]
    split
    · next hlt =>
      refine List.pairwise_cons.mpr ⟨fun e he => ?_, h⟩
      rcases List.mem_cons.mp he with rfl | he
      · exact hlt
      · exact hlt.trans (h'.1 e he)
    · next hlt =>
      refine List.pairwise_cons.mpr ⟨fun e he => ?_, ih (fun e he => hm e (by simp [he])) h'.2⟩
      rcases mem_insertVar.mp he with rfl | he
      · simp only; omega
      · exact h'.1 e he

/-- Writing a variable: it reads as the word written, and every other as before. -/
theorem readVar_writeVar (vs : List (Nat × Word32)) (m n : Nat) (w : Word32) :
    readVar (writeVar vs m w) n = if m = n then w else readVar vs n := by
  unfold writeVar
  split
  · next hw => rw [readVar_dropVar, hw]
  · rw [readVar_insertVar _ _ _ _ fun e he => (mem_dropVar.mp he).2, readVar_dropVar]
    split <;> rfl

/-- Writing a variable keeps the canonical form. -/
theorem wfVars_writeVar {vs : List (Nat × Word32)} (m : Nat) (w : Word32) (h : wfVars vs = true) :
    wfVars (writeVar vs m w) = true := by
  simp only [wfVars, Bool.and_eq_true, risingVars_iff, List.all_eq_true, bne_iff_ne] at h ⊢
  unfold writeVar
  split
  · exact ⟨pairwise_dropVar m h.1, fun e he => h.2 e (mem_dropVar.mp he).1⟩
  · next hw =>
    refine ⟨pairwise_insertVar w (fun e he => (mem_dropVar.mp he).2) (pairwise_dropVar m h.1), fun e he => ?_⟩
    rcases mem_insertVar.mp he with rfl | he
    · exact hw
    · exact h.2 e (mem_dropVar.mp he).1

theorem RecordHost.setVar_wf {p : RecordHost} (x : Var) (w : Word32) (h : wfVars p.vars = true) :
    wfVars (p.setVar x w).vars = true := by
  cases x with
  | named n => exact wfVars_writeVar n w h
  | temp => exact h

/-- Writing a host variable: it holds the word written, and every other keeps its own. -/
theorem RecordHost.getVar_setVar (p : RecordHost) (x y : Var) (w : Word32) :
    (p.setVar x w).getVar y = if x = y then w else p.getVar y := by
  cases x <;> cases y <;> simp [RecordHost.setVar, RecordHost.getVar, readVar_writeVar]

/-- A completed request keeps the variables in their canonical form. -/
theorem RecordHost.done_wf {p : RecordHost} (ret : Word32) (h : wfVars p.vars = true) :
    wfVars (p.done ret).vars = true := by
  unfold RecordHost.done
  split
  · exact h
  · dsimp only
    unfold RecordHost.store
    split
    · exact RecordHost.setVar_wf _ _ h
    · exact h

end Sys2Proof.Machine
end

