-- ==== Sys2Proof/Laws/Exec.lean ====
section
/-! SUPPORT. What each meaning can do, said once: the next states it answers, and that it answers one in every live
state. -/

namespace Sys2Proof.Machine

theorem execConvert_next {h sat v : Rat} {s t : State} (e : execConvert h sat v s = .next t) :
    s.live = true ∧
      ((∃ w, convert s.cfg.rangePolicy h sat v = .word w ∧ t = s.returnWord w) ∨
        ∃ f, convert s.cfg.rangePolicy h sat v = .range f ∧ t = s.raiseFault f) := by
  obtain ⟨hl, e⟩ := whenLive_next e
  refine ⟨hl, ?_⟩
  split at e
  · next w hw => exact .inl ⟨w, hw, by cases e; rfl⟩
  · next f hf => exact .inr ⟨f, hf, by cases e; rfl⟩

theorem execPush_next {w : Word32} {s t : State} (e : execPush w s = .next t) :
    s.live = true ∧ ((s.hasRoom = true ∧ t = s.enqueue w) ∨ (s.hasRoom = false ∧ t = s)) := by
  obtain ⟨hl, e⟩ := whenLive_next e
  refine ⟨hl, ?_⟩
  split at e
  · next hr => exact .inl ⟨hr, by cases e; rfl⟩
  · next hr => exact .inr ⟨by simpa using hr, by cases e; rfl⟩

theorem execEmit_next {s t : State} (e : execEmit s = .next t) :
    s.live = true ∧
      ((s.queue = [] ∧ t = s) ∨ ∃ w rest, s.queue = w :: rest ∧ t = s.transmit w rest) := by
  obtain ⟨hl, e⟩ := whenLive_next e
  refine ⟨hl, ?_⟩
  split at e
  · next hq => exact .inl ⟨hq, by cases e; rfl⟩
  · next w rest hq => exact .inr ⟨w, rest, hq, by cases e; rfl⟩

theorem execReserved_next {s t : State} (e : execReserved s = .next t) : s.live = true ∧ t = s.refuse := by
  obtain ⟨hl, e⟩ := whenLive_next e
  exact ⟨hl, by cases e; rfl⟩

/-- Only a live state has a next state, whatever the instruction. -/
theorem exec_live {i : Instr} {s t : State} (e : exec i s = .next t) : s.live = true := by
  cases i with
  | convert h sat v => exact (execConvert_next e).1
  | push w => exact (execPush_next e).1
  | emit => exact (execEmit_next e).1
  | reserved => exact (execReserved_next e).1

theorem execConvert_word {h sat v : Rat} {s : State} {w : Word32} (hl : s.live = true)
    (hc : convert s.cfg.rangePolicy h sat v = .word w) : execConvert h sat v s = .next (s.returnWord w) := by
  rw [execConvert, whenLive_of_live hl, hc]

theorem execConvert_range {h sat v : Rat} {s : State} {f : Fault} (hl : s.live = true)
    (hc : convert s.cfg.rangePolicy h sat v = .range f) : execConvert h sat v s = .next (s.raiseFault f) := by
  rw [execConvert, whenLive_of_live hl, hc]

theorem execPush_room {w : Word32} {s : State} (hl : s.live = true) (hr : s.hasRoom = true) :
    execPush w s = .next (s.enqueue w) := by
  rw [execPush, whenLive_of_live hl, if_pos hr]

theorem execPush_held {w : Word32} {s : State} (hl : s.live = true) (hr : s.hasRoom = false) :
    execPush w s = .next s := by
  rw [execPush, whenLive_of_live hl, if_neg (by simp [hr])]

theorem execEmit_cons {s : State} {w : Word32} {rest : List Word32} (hl : s.live = true)
    (hq : s.queue = w :: rest) : execEmit s = .next (s.transmit w rest) := by
  rw [execEmit, whenLive_of_live hl, hq]

theorem execEmit_nil {s : State} (hl : s.live = true) (hq : s.queue = []) : execEmit s = .next s := by
  rw [execEmit, whenLive_of_live hl, hq]

/-- In a live state every instruction answers a next state. -/
theorem exec_of_live (i : Instr) {s : State} (hl : s.live = true) : ∃ t, exec i s = .next t := by
  cases i with
  | convert h sat v =>
    cases hc : convert s.cfg.rangePolicy h sat v with
    | word w => exact ⟨_, execConvert_word hl hc⟩
    | range f => exact ⟨_, execConvert_range hl hc⟩
  | push w =>
    cases hr : s.hasRoom with
    | true => exact ⟨_, execPush_room hl hr⟩
    | false => exact ⟨_, execPush_held hl hr⟩
  | emit =>
    cases hq : s.queue with
    | nil => exact ⟨_, execEmit_nil hl hq⟩
    | cons w rest => exact ⟨_, execEmit_cons hl hq⟩
  | reserved => exact ⟨_, whenLive_of_live hl _⟩

end Sys2Proof.Machine
end

