-- ==== Sys2Proof/Laws/PerInstr.lean ====
section
/-! SUPPORT. Statements made of every instruction, one lemma per constructor. -/

namespace Sys2Proof.Laws.DecodeEncode

/-- Decoding an instruction's record, issued by its own agent, gives it back. -/
def Statement (i : Instr) : Prop := decode i.issuer (encode i) = .ok i

theorem convert (h s v : Rat) : Statement (.convert h s v) := rfl

theorem push (w : Word32) : Statement (.push w) := rfl

theorem emit : Statement .emit := rfl

theorem reserved : Statement .reserved := rfl

end Sys2Proof.Laws.DecodeEncode
end

