-- ==== Sys2Proof/Laws/Turn.lean ====
section
/-! SUPPORT. What one step can do, said once, and what a run of steps is made of. -/

namespace Sys2Proof.Machine

theorem State.actionOf_takeTurn (s : State) (a : Agent) : s.takeTurn.actionOf a = s.actionOf a := by
  cases a <;> rfl

/-- A record that is refused marks the state; one that is performed answers its meaning, and the agent goes on. -/
theorem issue_next {a : Agent} {r : Record} {s t : State} (e : issue a r s = .next t) :
    s.live = true ∧
      (((∃ why, decode a r = .error why) ∧ t = s.refuse) ∨
        ∃ i u, decode a r = .ok i ∧ exec i s = .next u ∧ t = s.settle a i u) := by
  unfold issue at e
  split at e
  · next why hd =>
    obtain ⟨hl, e⟩ := whenLive_next e
    exact ⟨hl, .inl ⟨⟨why, hd⟩, by cases e; rfl⟩⟩
  · next i hd =>
    split at e
    · next u hu => exact ⟨exec_live hu, .inr ⟨i, u, hd, hu, by cases e; rfl⟩⟩
    · cases e
    · cases e

/-- Every way in which a step answers a next state: the agent whose turn it is issues a record, or the repository's
host takes a step of its own, or the host has none. -/
theorem step_next {s t : State} (e : step s = .next t) :
    s.live = true ∧
      ((∃ r, s.actionOf s.nextAgent = .request r ∧ issue s.nextAgent r s.takeTurn = .next t) ∨
        (s.actionOf s.nextAgent = .sample ∧ t = s.takeTurn.sampleStep) ∨
        (s.actionOf s.nextAgent = .endFrame ∧ t = s.takeTurn.endFrameStep) ∨
        (s.actionOf s.nextAgent = .pace ∧ t = s.takeTurn.paceStep) ∨
        (s.actionOf s.nextAgent = .idle ∧ t = s.takeTurn)) := by
  unfold step turn perform at e
  split at e
  · next r hr =>
    exact ⟨(issue_next e).1, .inl ⟨r, hr, e⟩⟩
  all_goals
    obtain ⟨hl, e⟩ := whenLive_next e
    cases e
    simp_all

theorem step_request {s : State} {r : Record} (h : s.actionOf s.nextAgent = .request r) :
    step s = issue s.nextAgent r s.takeTurn := by
  rw [step, turn, h]; rfl

theorem step_sample {s : State} (hl : s.live = true) (h : s.actionOf s.nextAgent = .sample) :
    step s = .next s.takeTurn.sampleStep := by
  rw [step, turn, h]; exact whenLive_of_live (s := s.takeTurn) hl _

theorem step_endFrame {s : State} (hl : s.live = true) (h : s.actionOf s.nextAgent = .endFrame) :
    step s = .next s.takeTurn.endFrameStep := by
  rw [step, turn, h]; exact whenLive_of_live (s := s.takeTurn) hl _

theorem step_pace {s : State} (hl : s.live = true) (h : s.actionOf s.nextAgent = .pace) :
    step s = .next s.takeTurn.paceStep := by
  rw [step, turn, h]; exact whenLive_of_live (s := s.takeTurn) hl _

theorem step_idle {s : State} (hl : s.live = true) (h : s.actionOf s.nextAgent = .idle) :
    step s = .next s.takeTurn := by
  rw [step, turn, h]; exact whenLive_of_live (s := s.takeTurn) hl _

/-- The agent goes on after an operation that completed in a live state. -/
theorem State.settle_done {s t : State} (a : Agent) {i : Instr} (hh : s.holds i = false) (hl : t.live = true) :
    s.settle a i t = t.agentDone a := by
  simp [State.settle, hh, hl]

/-- The agent keeps a request that is held. -/
theorem State.settle_held {s t : State} (a : Agent) {i : Instr} (hh : s.holds i = true) : s.settle a i t = t := by
  simp [State.settle, hh]

/-- Nobody goes on past a mark. -/
theorem State.settle_dead {s t : State} (a : Agent) (i : Instr) (hl : t.live = false) : s.settle a i t = t := by
  simp [State.settle, hl]

theorem issue_ok {a : Agent} {r : Record} {s u : State} {i : Instr} (hd : decode a r = .ok i)
    (hu : exec i s = .next u) : issue a r s = .next (s.settle a i u) := by
  unfold issue; rw [hd]; dsimp only; rw [hu]

theorem issue_refused {a : Agent} {r : Record} {s : State} {why : RecordRefusal} (hl : s.live = true)
    (hd : decode a r = .error why) : issue a r s = .next s.refuse := by
  unfold issue; rw [hd]; exact whenLive_of_live hl _

/-- A schedule with the first turn chosen is the turn taken and the rest. -/
theorem State.takeTurn_turns_cons {s : State} {a : Agent} {rest : List Agent} (h : s.sched.turns = a :: rest) :
    s.nextAgent = a ∧ s.takeTurn.sched.turns = rest := by
  simp [State.nextAgent, State.takeTurn, Schedule.drawn, h]

theorem State.takeTurn_turns_nil {s : State} (h : s.sched.turns = []) :
    s.nextAgent = .host ∧ s.takeTurn.sched.turns = (freeRound s.sched.rounds).tail := by
  simp [State.nextAgent, State.takeTurn, Schedule.drawn, h]

/-! What the next step accepts and takes, from the instruction it issues. -/

theorem State.nextInstr_of_request {s : State} {r : Record} {i : Instr}
    (ha : s.actionOf s.nextAgent = .request r) (hd : decode s.nextAgent r = .ok i) : s.nextInstr = some i := by
  simp [State.nextInstr, ha, hd, Except.toOption]

theorem State.nextInstr_of_refused {s : State} {r : Record} {why : RecordRefusal}
    (ha : s.actionOf s.nextAgent = .request r) (hd : decode s.nextAgent r = .error why) : s.nextInstr = none := by
  simp [State.nextInstr, ha, hd, Except.toOption]

theorem State.accepted_of_push {s : State} {w : Word32} (h : s.nextInstr = some (.push w)) :
    s.accepted = if s.pushEnabled then [w] else [] := by
  simp [State.accepted, h]

theorem State.accepted_of_not_push {s : State} (h : ∀ w, s.nextInstr ≠ some (.push w)) : s.accepted = [] := by
  unfold State.accepted
  split <;> simp_all

theorem State.taken_of_emit {s : State} (h : s.nextInstr = some .emit) :
    s.taken = if s.emitEnabled then s.queue.take 1 else [] := by
  simp [State.taken, h]

theorem State.taken_of_not_emit {s : State} (h : s.nextInstr ≠ some .emit) : s.taken = [] := by
  unfold State.taken
  split <;> simp_all

theorem acceptedIn_succ {n : Nat} {s t : State} (e : step s = .next t) :
    acceptedIn (n + 1) s = s.accepted ++ acceptedIn n t := by
  simp [acceptedIn, e]

theorem takenIn_succ {n : Nat} {s t : State} (e : step s = .next t) :
    takenIn (n + 1) s = s.taken ++ takenIn n t := by
  simp [takenIn, e]

theorem framesIn_succ {n : Nat} {s t : State} (e : step s = .next t) :
    framesIn (n + 1) s = s.sampled + framesIn n t := by
  simp [framesIn, e]

/-! Runs. -/

theorem run_succ (n : Nat) (s : State) :
    core.run (n + 1) s = match step s with
      | .next t => core.run n t
      | .fault f => .fault f
      | .refused e => .refused e := by
  simp only [Host.Core.run, show core.step s = step s from rfl]
  cases step s <;> rfl

/-- A run of `n + 1` steps is a step and a run of `n`. -/
theorem run_succ_next {n : Nat} {s u : State} (h : core.run (n + 1) s = .next u) :
    ∃ t, step s = .next t ∧ core.run n t = .next u := by
  rw [run_succ] at h
  cases e : step s with
  | next t => rw [e] at h; exact ⟨t, rfl, h⟩
  | fault f => rw [e] at h; cases h
  | refused r => rw [e] at h; cases h

/-- A step and a run make a longer run. -/
theorem run_cons {n : Nat} {s u t : State} (hs : step s = .next u) (hr : core.run n u = .next t) :
    core.run (n + 1) s = .next t := by
  rw [run_succ, hs]; exact hr

/-- What holds at the start of a run and is kept by every step holds at its end. -/
theorem run_induction {P : State → Prop} (hstep : ∀ s t, P s → step s = .next t → P t) :
    ∀ n s t, P s → core.run n s = .next t → P t := by
  intro n
  induction n with
  | zero => intro s t hs h; cases h; exact hs
  | succ n ih =>
    intro s t hs h
    obtain ⟨u, hu, hr⟩ := run_succ_next h
    exact ih u t (hstep s u hs hu) hr

end Sys2Proof.Machine
end

