-- ==== Sys2Proof/Tests/Slice0.lean ====
section
/-! SUPPORT. The model's own tests: the checks of WellFormed, the decoding of written records, one step per
instruction against the vectors of 95_test_vectors.md (named V, S, P as there), and for every statement of
Obligations.lean that has hypotheses a witness that meets them. -/

open Sys2Proof Sys2Proof.Machine

namespace Sys2Proof.Tests

/- One test after another: checked all at once, their threads' stacks fill the memory. -/
set_option Elab.async false

/-! ## Small states -/

/-- The state after reset with a queue of depth `d` that holds `q`. -/
def small (d : Nat) (q : List Word32) : State :=
  { State.reset with cfg := { Cfg.initial with qdepth := d, bitRate := 0 }, queue := q }

/-- The same under `RANGE_POLICY = clamp`. -/
def clamping : State := { small 4 [] with cfg := { (small 4 []).cfg with rangePolicy := .clamp } }

/-- The next state, if there is one. -/
def after (x : Result) : Option State :=
  match x with
  | .next t => some t
  | .fault _ => none
  | .refused _ => none

/-- An outcome whose next state is known is that next state. -/
theorem next_of_after {x : Result} {t : State} (h : after x = some t) : x = .next t := by
  cases x <;> simp_all [after]

/-- A record of operands, the word lane zero. -/
def operands (kind : BitVec 2) (h s v : Operand) : Record := { kind := kind, h := h, s := s, v := v, w := 0 }

/-- The state in which `a` has the next turn. -/
def turnOf (a : Agent) (s : State) : State := { s with sched := { s.sched with turns := [a] } }

/-- The state whose host runs the requests given, with `n` turns of its own to come. -/
def running (n : Nat) (p : List HostOp) (s : State) : State :=
  { s with driver := .records, prog := { s.prog with program := p },
           sched := { s.sched with turns := List.replicate n .host } }

/-! ## WellFormed: each check refuses its ill-formed record, and the decoder with it (60_exceptions.md R164) -/

theorem test_wf_kind :
    (operands 0b11#2 (.rational 0) (.rational 0) (.rational 0)).kindWf = false ∧
    refusalOf .host (operands 0b11#2 (.rational 0) (.rational 0) (.rational 0)) = some .reservedKind := by decide

theorem test_wf_issuer :
    (encode .emit).issuerWf .host = false ∧ refusalOf .host (encode .emit) = some .wrongIssuer ∧
    (encode (.push 0)).issuerWf .serializer = false ∧
    refusalOf .serializer (encode (.push 0)) = some .wrongIssuer := by decide

theorem test_wf_operands :
    (operands 0b00#2 .nan (.rational 0) (.rational 0)).operandsWf = false ∧
    refusalOf .host (operands 0b00#2 .nan (.rational 0) (.rational 0)) = some .notRational ∧
    (operands 0b00#2 (.rational 0) .posInf (.rational 0)).operandsWf = false ∧
    refusalOf .host (operands 0b00#2 (.rational 0) (.rational 0) .negInf) = some .notRational := by decide

/-- A wrong issuer is found before an operand that is no rational (60_exceptions.md R165). -/
theorem test_wf_order :
    refusalOf .serializer (operands 0b00#2 .nan .nan .nan) = some .wrongIssuer ∧
    refusalOf .serializer (operands 0b11#2 .nan .nan .nan) = some .reservedKind := by decide

theorem test_wf_accepts :
    (operands 0b00#2 (.rational (-30)) (.rational 2) (.rational (1 / 3))).wf .host = true ∧
    (encode (.push 0xAABBCCDD#32)).wf .host = true ∧ (encode .emit).wf .serializer = true := by decide +kernel

/-! ## Decoding (30_encoding.md R66) -/

theorem test_decode_convert :
    decode .host { kind := 0b00#2, h := .rational 361, s := .rational (-1), v := .rational 2, w := 7 } =
      .ok (.convert 361 (-1) 2) := rfl

theorem test_decode_push :
    decode .host { kind := 0b01#2, h := .nan, s := .nan, v := .nan, w := 0xAABBCCDD#32 } =
      .ok (.push 0xAABBCCDD#32) := rfl

theorem test_decode_emit :
    decode .serializer { kind := 0b10#2, h := .nan, s := .nan, v := .nan, w := 1 } = .ok .emit := rfl

theorem test_decode_reserved :
    decode .serializer { kind := 0b11#2, h := .nan, s := .nan, v := .nan, w := 1 } = .ok .reserved := rfl

/-- The opcode table's four words, bit 0 the least significant bit of the kind. -/
theorem test_decode_table :
    decodeTableWord 8 0b00 = some (.convert 0 0 0) ∧ decodeTableWord 8 0b01 = some (.push 0) ∧
    decodeTableWord 8 0b10 = some .emit ∧ decodeTableWord 8 0b11 = some .reserved := ⟨rfl, rfl, rfl, rfl⟩

/-! ## The table's words run as the first instruction after reset -/

theorem test_first_convert : (after (step (State.reset.withFetchWord 8 0))).map State.ret = some 0#32 := by
  decide +kernel

theorem test_first_push : (after (step (State.reset.withFetchWord 8 1))).map State.queue = some [0#32] := by
  decide +kernel

theorem test_first_emit : (after (step (State.reset.withFetchWord 8 2))).map State.out = some [] := by
  decide +kernel

theorem test_first_reserved : (after (step (State.reset.withFetchWord 8 3))).map State.refused = some true := by
  decide +kernel

/-! ## CONVERT (95_test_vectors.md section 2.1) -/

/-- V12, V17, V22, V25, V36: interpolation, the default arm at sector 6 and -1, an exact boundary, and a product
between 255 and 256. -/
theorem test_convert_words :
    convert .fault 30 (1 / 2) (1 / 2) = .word 0x5F7F3F00#32 ∧ convert .fault 361 1 1 = .word 0x00FFFA00#32 ∧
    convert .fault (-4320 / 4083) 1 1 = .word 0x00FF0400#32 ∧ convert .fault 0 (2 / 3) 1 = .word 0x55FF5500#32 ∧
    convert .fault 0 0 (511 / 510) = .word 0xFFFFFF00#32 := by decide +kernel

/-- V41, V43, V45: the first channel outside the window; V43 under clamp. -/
theorem test_convert_faults :
    after (exec (.convert 0 0 (-1 / 255)) (small 4 [])) =
      some { small 4 [] with fault := some (.range .red (-1 / 255)) } ∧
    after (exec (.convert 0 2 1) (small 4 [])) = some { small 4 [] with fault := some (.range .green (-1)) } ∧
    after (exec (.convert 240 1 (-1)) (small 4 [])) = some { small 4 [] with fault := some (.range .blue (-1)) } ∧
    after (exec (.convert 0 2 1) clamping) = some { clamping with ret := 0x00FF0000#32 } := by decide +kernel

/-! ## PUSH, EMIT and the reserved kind (95_test_vectors.md section 2.2) -/

/-- V51 and V53. -/
theorem test_push :
    after (exec (.push 0xFF000000#32) (small 4 [0x00FF0000#32])) =
      some (small 4 [0x00FF0000#32, 0xFF000000#32]) ∧
    after (exec (.push 0xFF000000#32) (small 1 [0x00FF0000#32])) = some (small 1 [0x00FF0000#32]) := by
  decide +kernel

/-- V52, V55 and V56. -/
theorem test_emit :
    after (exec .emit (small 4 [0x00FF0000#32, 0xFF000000#32])) =
      some { small 4 [0xFF000000#32] with out := [0x00FF00#24] } ∧
    after (exec .emit (small 4 [])) = some (small 4 []) ∧
    after (exec .emit (small 4 [0xAABBCCDD#32])) = some { small 4 [] with out := [0xAABBCC#24] } := by decide +kernel

/-- V61. -/
theorem test_reserved : after (exec .reserved (small 4 [])) = some { small 4 [] with refused := true } := by
  decide +kernel

/-- The bits of `0x123456`, leftmost first (95_test_vectors.md section 2.2, line bit order). -/
theorem test_line_bits :
    sentBits (line 0x12345600#32) =
      [false, false, false, true, false, false, true, false, false, false, true, true, false, true, false, false,
       false, true, false, true, false, true, true, false] := by decide +kernel

/-! ## Steps of the hosts -/

/-- V59 and V60: a step whose record comes from the wrong issuer. -/
theorem test_step_wrong_issuer :
    (after (step ((small 4 []).place .host (encode .emit)))).map State.refused = some true ∧
    (after (step ((small 4 []).place .serializer (encode (.push 0))))).map State.refused = some true := by
  decide +kernel

/-- V53, as a step: the held host keeps its request. -/
theorem test_step_held :
    (after (step (running 1 [.record (encode (.push 1))] (small 1 [0])))).map (fun t => (t.queue, t.prog.program)) =
      some ([0#32], [.record (encode (.push 1))]) := by decide +kernel

/-- S8: the readings 2048 and 2048, calibrated; no hue is read in sweep mode. -/
theorem test_step_sample :
    (after (step (turnOf .host { small 4 [] with adc := { readings := [2048, 2048, 9], draws := 0 } }))).map
      (fun t => (t.repo.val, t.repo.sat, t.repo.pixel, t.adc.readings)) =
      some (2036 / 4083, 2036 / 4083, 0, [9]) := by decide +kernel

/-- The calibration table of section 2.3: the order of value, saturation and hue in sensor mode. -/
theorem test_step_sample_sensor :
    (after (step (turnOf .host { small 4 [] with
      cfg := { (small 4 []).cfg with hueMode := .sensor }, adc := { readings := [0, 12, 4095], draws := 0 } }))).map
      (fun t => (t.repo.val, t.repo.sat, t.repo.hue)) = some (-12 / 4083, 0, 360) := by decide +kernel

/-- P4, pixel 1 of table T4: converted, it awaits its PUSH. -/
theorem test_step_render :
    (after (step (turnOf .host { small 4 [] with repo := { (small 4 []).repo with
      phase := .render, pixel := 1, hueAcc := 45 / 8, val := 2036 / 4083, sat := 2036 / 4083 } }))).map
      (fun t => (t.repo.phase, t.repo.word)) = some (.awaitPush, 0x457F3F00#32) := by decide +kernel

/-- P3, first line: the text, and the record it issues (30_encoding.md R70). -/
theorem test_assembly :
    readProgram ["CONVERT w0, 361, 1, 1    ; default arm".toList, "PUSH    w0".toList, "SHOW 0, 0, 1".toList] =
      some [.convert 0 361 1 1, .pushVar 0, .show 0 0 1] := by decide +kernel

/-! ## Witnesses: for each statement with hypotheses, a state and operands that meet them, clause by clause at the
ends of its ranges -/

/-- V12, with its stages; V45 for the last channel, V43 and V41 for the others. -/
theorem witness_ConvertIsThePseudocode :
    (small 4 []).live = true ∧ (30 : Rat) = (if (30 : Rat) = 360 then 0 else 30) ∧ (0 : Int) = ⌊(30 / 60 : Rat)⌋ ∧
    (1 / 2 : Rat) = 30 / 60 - (0 : Int) ∧ (1 / 4 : Rat) = 1 / 2 * (1 - 1 / 2) ∧
    (3 / 8 : Rat) = 1 / 2 * (1 - 1 / 2 * (1 / 2)) ∧ (3 / 8 : Rat) = 1 / 2 * (1 - 1 / 2 * (1 - 1 / 2)) ∧
    (-1 < (1 / 2 : Rat) * 255 ∧ (1 / 2 : Rat) * 255 < 256) ∧ ¬ (-1 < (-1 : Rat) * 255 ∧ (-1 : Rat) * 255 < 256) ∧
    clamping.cfg.rangePolicy = .clamp ∧ (small 4 []).cfg.rangePolicy = .fault := by decide +kernel

theorem witness_ConvertPacksTheScaledComponents :
    (small 4 []).live = true ∧
    (∀ x ∈ [(30, 1 / 2, 1 / 2), (0, 0, 511 / 510), (0, 0, -1 / 510)],
      inWindow (components x.1 x.2.1 x.2.2).r ∧ inWindow (components x.1 x.2.1 x.2.2).g ∧
        inWindow (components x.1 x.2.1 x.2.2).b) ∧
    clamping.live = true ∧ clamping.cfg.rangePolicy = .clamp := by decide +kernel

theorem witness_AchromaticBypassReadsNoHue : (small 4 []).live = true ∧ (1 / 1000 : Rat) ≠ 0 := by decide +kernel

theorem witness_SectorIndexIsTheFloor :
    (((360 : Rat) = 360 → (0 : Rat) = 0) ∧ ((360 : Rat) ≠ 360 → (0 : Rat) = 360)) ∧
    (((-60 : Rat) = 360 → (-60 : Rat) = 0) ∧ ((-60 : Rat) ≠ 360 → (-60 : Rat) = -60)) ∧
    (-60 : Rat) ≤ -60 ∧ (-60 : Rat) < 0 := by decide +kernel

/-- Each arm at the first hue of its range, the default arm at 300, 361 and -1. -/
theorem witness_SectorTableSelectsTheComponents :
    (1 / 2 : Rat) ≠ 0 ∧
    [0, 60, 120, 180, 240, 300, 360, 361, -1].map sectorIndex = [0, 1, 2, 3, 4, 5, 0, 6, -1] := by decide +kernel

theorem witness_ScalingTruncatesTowardZero :
    (small 4 []).live = true ∧ inWindow 0 ∧ inWindow (511 / 510) ∧ (0 : Rat) ≤ 0 ∧ (-1 : Rat) < -1 / 2 ∧
    (-1 / 2 : Rat) < 0 := by decide +kernel

/-- V41, V43 and V45 under `fault`; V42 and V41 under `clamp`, where a product is exactly 256 or -1. -/
theorem witness_RangePolicyDecidesOutsideTheWindow :
    (small 4 []).live = true ∧ (small 4 []).cfg.rangePolicy = .fault ∧
    ¬ inWindow (components 0 0 (-1 / 255)).r ∧
    (inWindow (components 0 2 1).r ∧ ¬ inWindow (components 0 2 1).g) ∧
    (inWindow (components 240 1 (-1)).r ∧ inWindow (components 240 1 (-1)).g ∧
      ¬ inWindow (components 240 1 (-1)).b) ∧
    clamping.live = true ∧ clamping.cfg.rangePolicy = .clamp ∧
    256 ≤ (components 0 0 (256 / 255)).r * 255 ∧ (components 0 0 (-1 / 255)).r * 255 ≤ -1 ∧
    inWindow (components 0 0 1).r := by decide +kernel

theorem witness_NominalDomainNeverFaults :
    (small 4 []).live = true ∧ (0 : Rat) ≤ 0 ∧ (0 : Rat) ≤ 1 ∧ (1 : Rat) ≤ 1 := by decide +kernel

/-- V34 and V35: a product of 255 and more, and one below 0. -/
theorem witness_CalibratedDomainNeverFaults :
    (small 4 []).live = true ∧ (-12 / 4083 : Rat) ≤ -12 / 4083 ∧ (-12 / 4083 : Rat) ≤ 1 ∧ (1 : Rat) ≤ 1 ∧
    255 ≤ (components 0 (-12 / 4083) 1).g * 255 ∧ (components 0 (-12 / 4083) (-12 / 4083)).r * 255 < 0 := by
  decide +kernel

theorem witness_HueThreeSixtyConvertsAsZero : (small 4 []).live = true := by decide +kernel

theorem witness_PrimariesAndSecondaries : clamping.live = true := by decide +kernel

theorem witness_ComponentsContinuousInTheHue :
    (1 : Rat) ≠ 0 ∧ (1 / 2 : Rat) ≠ 0 ∧ (6 ≤ (6 : Int) ∨ (6 : Int) ≤ -1) ∧ (6 ≤ (-1 : Int) ∨ (-1 : Int) ≤ -1) := by
  decide +kernel

theorem witness_OutOfDomainHuesTakeTheDefaultArm :
    (small 4 []).live = true ∧ (1 : Rat) ≠ 0 ∧ (360 : Rat) < 360 + 1 / 1000 ∧ (-1 / 1000 : Rat) < 0 ∧
    (-12 / 4083 : Rat) ≤ -12 / 4083 ∧ (-12 / 4083 : Rat) ≤ 1 ∧ (1 : Rat) ≤ 1 := by decide +kernel

theorem witness_ConvertDependsOnOperandsAndPolicyAlone :
    (small 4 []).live = true ∧ (small 1 [7]).live = true ∧
    (small 4 []).cfg.rangePolicy = (small 1 [7]).cfg.rangePolicy := by decide +kernel

theorem witness_TruncationBoundariesAreExact :
    (small 4 []).live = true ∧ 255 ≤ 255 ∧ 254 < 255 ∧ (254 : Rat) / 255 ≤ 254 / 255 ∧
    (254 / 255 : Rat) < (254 + 1) / 255 ∧ (0 : Rat) / 255 ≤ 0 ∧ (0 : Rat) < (0 + 1) / 255 := by decide +kernel

/-- V12. -/
theorem witness_PackedWordFields :
    exec (.convert 30 (1 / 2) (1 / 2)) (small 4 []) = .next { small 4 [] with ret := 0x5F7F3F00#32 } :=
  next_of_after (by decide +kernel)

theorem witness_LineSendsGreenRedBlueMsbFirst :
    (small 4 [0x00FF0000#32, 5]).live = true ∧ (small 4 [0x00FF0000#32, 5]).queue = 0x00FF0000#32 :: [5] := by
  decide +kernel

theorem witness_LowByteIsIgnoredOnTheLine :
    (small 4 []).live = true ∧ (small 4 []).queue.length < (small 4 []).cfg.qdepth ∧
    convert .fault 0 1 1 = .word 0x00FF0000#32 := by decide +kernel

/-- One record for each clause. -/
theorem witness_DecoderFollowsTheKindTable :
    (operands 0b00#2 (.rational 0) (.rational 1) (.rational 2)).kind = 0b00#2 ∧ (encode (.push 1)).kind = 0b01#2 ∧
    (encode .emit).kind = 0b10#2 ∧ (encode .reserved).kind = 0b11#2 := by decide +kernel

/-- Every reason occurs, and so does none. -/
theorem witness_RefusedRecordMarksAndStops :
    (small 4 []).live = true ∧ refusalOf .host (encode .reserved) = some .reservedKind ∧
    refusalOf .host (encode .emit) = some .wrongIssuer ∧
    refusalOf .host (operands 0b00#2 .posInf (.rational 0) (.rational 0)) = some .notRational ∧
    refusalOf .host (encode (.push 1)) = none := by decide +kernel

theorem witness_DecodeOfEncodeIsTheInstruction :
    decode .host { kind := 0b01#2, h := .nan, s := .nan, v := .nan, w := 9 } = .ok (.push 9) ∧
    (Instr.push 9).wf = true := ⟨rfl, rfl⟩

/-- Room, no room, and no room at depth 1. -/
theorem witness_PushAppendsOrHolds :
    ((small 4 [1, 2, 3]).fault = none ∧ (small 4 [1, 2, 3]).refused = false ∧
      (small 4 [1, 2, 3]).queue.length < (small 4 [1, 2, 3]).cfg.qdepth) ∧
    (small 1 [1]).fault = none ∧ (small 1 [1]).refused = false ∧
    (¬ (small 1 [1]).queue.length < (small 1 [1]).cfg.qdepth) ∧
    (small 1 [1]).queue.length = (small 1 [1]).cfg.qdepth ∧ 1 ≤ (small 1 [1]).cfg.qdepth := by decide +kernel

theorem witness_EmitTransmitsTheOldestWord :
    ((small 4 [7]).fault = none ∧ (small 4 [7]).refused = false ∧ (small 4 [7]).queue = 7 :: []) ∧
    (small 4 []).fault = none ∧ (small 4 []).refused = false ∧ (small 4 []).queue = [] := by decide +kernel

theorem witness_ReservedKindIsRefused : (small 4 []).live = true := by decide +kernel

theorem witness_RepeatedOperations :
    (exec (.convert 0 1 1) (small 4 []) = .next { small 4 [] with ret := 0x00FF0000#32 } ∧
      ({ small 4 [] with ret := 0x00FF0000#32 } : State).fault = none) ∧
    (small 2 []).live = true ∧ (small 2 []).queue.length + 1 < (small 2 []).cfg.qdepth ∧
    (small 2 [7, 7]).live = true ∧ (small 2 [7, 7]).queue = 7 :: 7 :: [] :=
  ⟨⟨next_of_after (by decide +kernel), by decide +kernel⟩, by decide +kernel⟩

/-- A marked state of each kind, and a step that answers a next state. -/
theorem witness_MarkedStateHasNoStep :
    ({ small 4 [] with fault := some (.range .red 2) } : State).fault = some (.range .red 2) ∧
    (({ small 4 [] with refused := true } : State).fault = none ∧
      ({ small 4 [] with refused := true } : State).refused = true) ∧
    (after (step (turnOf .serializer (small 4 [7])))).isSome = true := by decide +kernel

/-- A held PUSH, a range fault, and a step that is refused. -/
theorem witness_NoPartialEffect :
    (exec (.push 1) (small 1 [7]) = .next (small 1 [7]) ∧ (small 1 [7]).holds (.push 1) = true) ∧
    (exec (.convert 0 0 2) (small 4 [7]) = .next { small 4 [7] with fault := some (.range .red 2) } ∧
      ({ small 4 [7] with fault := some (.range .red 2) } : State).live = false) ∧
    (after (step ((small 4 [7]).place .host (encode .emit)))).map State.live = some false :=
  ⟨⟨next_of_after (by decide +kernel), by decide +kernel⟩, ⟨next_of_after (by decide +kernel), by decide +kernel⟩,
    by decide +kernel⟩

theorem witness_InstructionFrames :
    (after (exec (.convert 0 1 1) (small 4 [7]))).isSome = true ∧
    (after (exec (.push 1) (small 4 [7]))).isSome = true ∧ (after (exec .emit (small 4 [7]))).isSome = true ∧
    (after (exec .reserved (small 4 [7]))).isSome = true := by decide +kernel

theorem witness_StepRunsTheDecodedRecord :
    ((turnOf .serializer (small 4 [7])).actionOf (turnOf .serializer (small 4 [7])).nextAgent =
        .request (encode .emit) ∧
      decode .serializer (encode .emit) = .ok .emit ∧
      (after (exec .emit (turnOf .serializer (small 4 [7])).takeTurn)).isSome = true) ∧
    exec .emit ({ small 4 [] with fault := some (.range .red 2) } : State).takeTurn = .fault (.range .red 2) ∧
    (turnOf .serializer (small 4 [7])).sched.turns = .serializer :: [] :=
  ⟨⟨rfl, rfl, by decide +kernel⟩, rfl, rfl⟩

theorem witness_PlacedRecordRunsNext :
    (small 4 []).live = true ∧ decodeTableWord 8 0 = some (.convert 0 0 0) ∧
    decodeTableWord 8 3 = some .reserved := ⟨rfl, rfl, rfl⟩

/-- Steps that answer a next state: an EMIT, a PUSH. -/
theorem witness_ConfigurationFixedAndLineOnlyGrows :
    (after (step (turnOf .serializer (small 4 [7])))).map State.out = some [0#24] ∧
    (after (step (running 1 [.record (encode (.push 1))] (small 4 [7])))).map State.queue = some [7, 1] := by
  decide +kernel

/-- A queue that is full. -/
theorem witness_QueueStaysBounded :
    (turnOf .serializer (small 1 [7])).queue.length ≤ (turnOf .serializer (small 1 [7])).cfg.qdepth ∧
    (after (step (turnOf .serializer (small 1 [7])))).isSome = true := by decide +kernel

/-- A run of two steps: one word accepted, one taken. -/
theorem witness_NoWordLostDuplicatedOrReordered :
    core.run 2 { running 1 [.record (encode (.push 1))] (small 4 []) with
      sched := { turns := [.host, .serializer], rounds := 0 } } =
        .next { running 0 [] (small 4 []) with out := [0#24] } ∧
    acceptedIn 2 { running 1 [.record (encode (.push 1))] (small 4 []) with
      sched := { turns := [.host, .serializer], rounds := 0 } } = [1] ∧ (small 4 []).queue = [] ∧
    (small 4 []).out = [] :=
  ⟨rfl, by decide +kernel, rfl, rfl⟩

/-- The same requests under two depths and two schedules. -/
theorem witness_LineIsIndependentOfDepthAndSchedule :
    core.run 1 (running 1 [.record (encode (.push 1))] (small 4 [])) = .next (running 0 [] (small 4 [1])) ∧
    core.run 1 { running 1 [.record (encode (.push 1))] (small 4 []) with
        cfg := { (small 4 []).cfg with qdepth := 1 }, sched := { turns := [.serializer], rounds := 3 } } =
      .next { running 0 [.record (encode (.push 1))] (small 1 []) with sched := { turns := [], rounds := 3 } } ∧
    (running 1 [.record (encode (.push 1))] (small 4 [])).queue = [] := ⟨rfl, rfl, rfl⟩

/-- A host with one PUSH to request, a full queue, and a machine that never stops: every step of it answers a next
state in which the host has that PUSH to request, or nothing. -/
def OneToPush (s : State) : Prop :=
  s.live = true ∧ s.driver = .records ∧ s.serRecords = [] ∧
    (s.prog.program = [.record (encode (.push 1))] ∨ s.prog.program = [])

theorem OneToPush.step {s : State} (h : OneToPush s) : ∃ t, step s = .next t ∧ OneToPush t := by
  obtain ⟨hl, hd, hs, hp⟩ := h
  cases ha : s.nextAgent with
  | serializer =>
    have act : s.actionOf s.nextAgent = .request (encode .emit) := by
      simp [ha, State.actionOf, State.serializerAction, hs]
    cases hq : s.queue with
    | nil =>
      refine ⟨_, (step_request act).trans (issue_ok (i := .emit) (by rw [ha]; rfl) (execEmit_nil (s := s.takeTurn) hl hq)), ?_⟩
      rw [State.settle_held _ (by simp [State.holds, State.empty, hq])]
      exact ⟨hl, hd, hs, hp⟩
    | cons w rest =>
      refine ⟨_, (step_request act).trans (issue_ok (i := .emit) (by rw [ha]; rfl) (execEmit_cons (s := s.takeTurn) hl hq)), ?_⟩
      rw [State.settle_done (s := s.takeTurn) (t := s.takeTurn.transmit w rest) _
        (by simp [State.holds, State.empty, hq]) hl, ha]
      exact ⟨hl, hd, by simp [State.agentDone, hs], hp⟩
  | host =>
    rcases hp with hp | hp
    · have act : s.actionOf s.nextAgent = .request (encode (.push 1)) := by
        simp [ha, State.actionOf, State.hostAction, hd, RecordHost.action, hp, RecordHost.recordOf]
      cases hr : s.hasRoom with
      | false =>
        refine ⟨_, (step_request act).trans (issue_ok (i := .push 1) (by rw [ha]; rfl) (execPush_held (s := s.takeTurn) hl hr)), ?_⟩
        rw [State.settle_held _ (by simp [State.holds, hr])]
        exact ⟨hl, hd, hs, .inl hp⟩
      | true =>
        refine ⟨_, (step_request act).trans (issue_ok (i := .push 1) (by rw [ha]; rfl) (execPush_room (s := s.takeTurn) hl hr)), ?_⟩
        rw [State.settle_done (s := s.takeTurn) (t := s.takeTurn.enqueue 1) _ (by simp [State.holds, hr]) hl, ha]
        exact ⟨by rw [State.agentDone_live]; exact hl, by simp [State.agentDone, hd],
          by simp [State.agentDone, hd, hs], .inr (by simp [State.agentDone, hd, RecordHost.done, hp])⟩
    · have act : s.actionOf s.nextAgent = .idle := by
        simp [ha, State.actionOf, State.hostAction, hd, RecordHost.action, hp]
      exact ⟨_, step_idle hl act, hl, hd, hs, .inr hp⟩

theorem OneToPush.run (n : Nat) : ∀ {s : State}, OneToPush s → ∃ t, core.run n s = .next t := by
  induction n with
  | zero => exact fun {s} _ => ⟨s, rfl⟩
  | succ n ih =>
    intro s h
    obtain ⟨u, hu, Hu⟩ := h.step
    obtain ⟨t, ht⟩ := ih Hu
    exact ⟨t, run_cons hu ht⟩

theorem witness_EveryAcceptedWordIsTransmitted :
    (running 0 [.record (encode (.push 1))] (small 1 [7])).serRecords = [] ∧
    1 ≤ (running 0 [.record (encode (.push 1))] (small 1 [7])).cfg.qdepth ∧
    (∀ n, ∃ t, core.run n (running 0 [.record (encode (.push 1))] (small 1 [7])) = .next t) ∧
    (running 0 [.record (encode (.push 1))] (small 1 [7])).hostAction = .request (encode (.push 1)) ∧
    decode .host (encode (.push 1)) = .ok (.push 1) :=
  ⟨rfl, by decide, fun n => OneToPush.run n ⟨rfl, rfl, rfl, .inl rfl⟩, rfl, rfl⟩

theorem witness_SerializerIgnoresTheHost :
    (turnOf .serializer (small 4 [7])).nextAgent = .serializer ∧
    (after (step (turnOf .serializer (small 4 [7])))).isSome = true := by decide +kernel

/-- Two queues, both with room. -/
theorem witness_HostSeesOnlyWhetherThereIsRoom :
    (after (step (running 1 [.record (encode (.push 1))] (small 4 [7])))).isSome = true ∧
    ({ running 1 [.record (encode (.push 1))] (small 4 [7]) with queue := [1, 2, 3], out := [9] } : State).hasRoom =
      (running 1 [.record (encode (.push 1))] (small 4 [7])).hasRoom := by decide +kernel

theorem witness_SampleCalibratesTheReadings :
    (small 4 []).cfg.admitted ∧ (small 4 []).live = true ∧ (small 4 []).driver = .repository ∧
    (small 4 []).repo.phase = .sample ∧ (small 4 []).nextAgent = .host ∧ 4095 ≤ 4095 ∧ 11 ≤ 11 := by decide +kernel

/-- The repository's host, in a phase and at a pixel. -/
def hostAt (q : List Word32) (p : Phase) (k : Nat) : State :=
  { small 1 q with repo := { (small 1 q).repo with phase := p, pixel := k, hueAcc := k * (360 / 64) } }

/-- One state for each row of the table. -/
theorem witness_RepositoryHostPhases :
    (∀ x ∈ [hostAt [] .sample 0, hostAt [] .render 63, hostAt [] .awaitPush 63, hostAt [7] .awaitPush 0,
        hostAt [] .render 64, hostAt [] .pace 64],
      x.live = true ∧ x.driver = .repository ∧ x.nextAgent = .host) ∧
    ((hostAt [] .render 63).repo.pixel < (hostAt [] .render 63).cfg.nLeds ∧
      convert (hostAt [] .render 63).cfg.rangePolicy
        (pixelHue (hostAt [] .render 63).cfg (hostAt [] .render 63).repo) (hostAt [] .render 63).repo.sat
        (hostAt [] .render 63).repo.val = .word 0) ∧
    (hostAt [] .awaitPush 63).queue.length < (hostAt [] .awaitPush 63).cfg.qdepth ∧
    (¬ (hostAt [7] .awaitPush 0).queue.length < (hostAt [7] .awaitPush 0).cfg.qdepth) ∧
    (hostAt [] .render 64).repo.pixel = (hostAt [] .render 64).cfg.nLeds := by decide +kernel

/-- A state of the repository's host that its runs can reach. -/
theorem hostAt_run (p : Phase) (k : Nat) (h : k < 64) : (hostAt [] p k).RepositoryRun where
  admitted   := by simp only [hostAt]; decide
  live       := rfl
  driver     := rfl
  serializer := rfl
  bounded    := Nat.zero_le _
  sat        := by simp only [hostAt, Calibrated]; decide +kernel
  val        := by simp only [hostAt, Calibrated]; decide +kernel
  pixel      := Nat.le_of_lt h
  awaiting   := fun _ => h
  hueAcc     := rfl

theorem witness_HueAccumulatorMatchesThePixel :
    (hostAt [] .render 63).RepositoryRun ∧ (hostAt [] .render 63).repo.pixel < 64 ∧
    (hostAt [] .render 63).cfg.hueMode = .sweep ∧
    ({ hostAt [] .render 63 with cfg := { (hostAt [] .render 63).cfg with hueMode := .sensor } } : State).RepositoryRun ∧
    (after (step (hostAt [] .awaitPush 63))).isSome = true :=
  ⟨hostAt_run _ _ (by decide), by decide, rfl, { hostAt_run .render 63 (by decide) with }, by decide +kernel⟩

theorem witness_RepositoryHostNeverFaults : (hostAt [] .sample 0).RepositoryRun := hostAt_run _ _ (by decide)

theorem witness_FrameIsStreamedInPixelOrder :
    (turnOf .host (hostAt [] .sample 0)).RepositoryRun ∧ (turnOf .host (hostAt [] .sample 0)).repo.phase = .sample ∧
    (after (core.run 1 (turnOf .host (hostAt [] .sample 0)))).isSome = true ∧
    framesIn 1 (turnOf .host (hostAt [] .sample 0)) = 1 :=
  ⟨{ hostAt_run .sample 0 (by decide) with }, by decide +kernel⟩

/-- P4: the statement's last clause is met where the frame is complete, and no shorter run completes one. Words 0 and 1
of table T4. -/
theorem witness_FrameIsStreamedInPixelOrder_complete :
    (after (core.run 130 { small 64 [] with
      sched := { turns := List.replicate 130 .host, rounds := 0 },
      adc := { readings := [2048, 2048], draws := 0 } })).map
      (fun t => (t.repo.phase, t.repo.pixel, t.queue.length, t.queue.take 2)) =
      some (.pace, 64, 64, [0x3F7F3F00#32, 0x457F3F00#32]) := by decide +kernel

/-- V1, as SHOW. -/
theorem witness_ShowConvertsThenPushes :
    (running 2 (expandLine (.show 0 1 1)) (small 4 [])).live = true ∧
    (running 2 (expandLine (.show 0 1 1)) (small 4 [])).driver = .records ∧
    (running 2 (expandLine (.show 0 1 1)) (small 4 [])).prog.program = expandLine (.show 0 1 1) ++ [] ∧
    (running 2 (expandLine (.show 0 1 1)) (small 4 [])).sched.turns = .host :: .host :: [] ∧
    convert (small 4 []).cfg.rangePolicy 0 1 1 = .word 0x00FF0000#32 ∧
    (small 4 []).queue.length < (small 4 []).cfg.qdepth := by decide +kernel

theorem witness_VariableCarriesTheConvertedWord :
    (running 2 (expandLine (.convert 3 0 1 1) ++ expandLine (.pushVar 3)) (small 4 [])).live = true ∧
    (running 2 (expandLine (.convert 3 0 1 1) ++ expandLine (.pushVar 3)) (small 4 [])).prog.program =
      expandLine (.convert 3 0 1 1) ++ expandLine (.pushVar 3) ++ [] ∧
    (running 2 (expandLine (.convert 3 0 1 1) ++ expandLine (.pushVar 3)) (small 4 [])).sched.turns =
      .host :: .host :: [] ∧
    convert (small 4 []).cfg.rangePolicy 0 1 1 = .word 0x00FF0000#32 ∧
    (small 4 []).queue.length < (small 4 []).cfg.qdepth ∧ Var.temp ≠ .named 3 := by decide +kernel

/-- A variable that is listed is converted over. -/
theorem witness_HostVariablesStayCanonical :
    wfVars [(0, 5), (3, 7)] = true ∧
    (after (step { running 1 (expandLine (.convert 3 0 1 0)) (small 4 []) with
      prog := { program := expandLine (.convert 3 0 1 0), vars := [(0, 5), (3, 7)], temp := 0 } })).map
      (fun t => t.prog.vars) = some [(0, 5)] := by decide +kernel

end Sys2Proof.Tests
end

/-! ## No partial effect (00_scope.md rule R10) -/

namespace Sys2Proof.Machine

@[simp] theorem State.holds_convert (s : State) (h sat v : Rat) : s.holds (.convert h sat v) = false := rfl

@[simp] theorem State.holds_push (s : State) (w : Word32) : s.holds (.push w) = !s.hasRoom := rfl

@[simp] theorem State.holds_emit (s : State) : s.holds .emit = s.empty := rfl

@[simp] theorem State.holds_reserved (s : State) : s.holds .reserved = false := rfl

@[simp] theorem State.settle_live (s : State) (a : Agent) (i : Instr) (t : State) :
    (s.settle a i t).live = t.live := by
  simp [State.live]

/-- A held operation leaves the whole state: only PUSH and EMIT can be held (rules R143, R144). -/
theorem exec_eq_self_of_holds {i : Instr} {s t : State} (e : exec i s = .next t) (hh : s.holds i = true) : t = s := by
  cases i with
  | convert h sat v => simp at hh
  | push w =>
    obtain ⟨-, ⟨hr, -⟩ | ⟨-, ht⟩⟩ := execPush_next e
    · simp [hr] at hh
    · exact ht
  | emit =>
    obtain ⟨-, ⟨-, ht⟩ | ⟨w, rest, hq, -⟩⟩ := execEmit_next e
    · exact ht
    · simp [s.empty_iff, hq] at hh
  | reserved => simp at hh

/-- An instruction that sets a mark leaves the queue and the line: CONVERT and the reserved kind never touch them, and
PUSH and EMIT, which do, set no mark. -/
theorem exec_queue_out_of_marked {i : Instr} {s t : State} (e : exec i s = .next t) (ht : t.live = false) :
    t.queue = s.queue ∧ t.out = s.out := by
  have hlive : s.live = true := exec_live e
  cases i with
  | convert h sat v =>
    obtain ⟨-, ⟨w, -, rfl⟩ | ⟨f, -, rfl⟩⟩ := execConvert_next e
    · simp
    · simp
  | push w =>
    obtain ⟨-, ⟨-, rfl⟩ | ⟨-, rfl⟩⟩ := execPush_next e
    · simp [hlive] at ht
    · simp
  | emit =>
    obtain ⟨-, ⟨-, rfl⟩ | ⟨w, rest, -, rfl⟩⟩ := execEmit_next e
    · simp
    · simp [hlive] at ht
  | reserved =>
    obtain ⟨-, rfl⟩ := execReserved_next e
    simp

/-- Issuing a record that ends in a mark, by refusal of the record or within its operation, leaves the queue and the
line. -/
theorem issue_queue_out_of_marked {a : Agent} {r : Record} {s t : State} (e : issue a r s = .next t)
    (ht : t.live = false) : t.queue = s.queue ∧ t.out = s.out := by
  obtain ⟨-, ⟨-, rfl⟩ | ⟨i, u, -, hu, rfl⟩⟩ := issue_next e
  · simp
  · simpa using exec_queue_out_of_marked hu (by simpa using ht)

/-- A step that sets a mark leaves the queue and the line: it issued a record, or it was a host's own step, which never
touches them. -/
theorem step_queue_out_of_marked {s t : State} (e : step s = .next t) (ht : t.live = false) :
    t.queue = s.queue ∧ t.out = s.out := by
  obtain ⟨-, ⟨r, -, hr⟩ | ⟨-, rfl⟩ | ⟨-, rfl⟩ | ⟨-, rfl⟩ | ⟨-, rfl⟩⟩ := step_next e
  · simpa using issue_queue_out_of_marked hr ht
  · simp
  · simp
  · simp
  · simp

/-- Settles O29, clause by clause from what an instruction and a step can do. -/
theorem noPartialEffect : Obligations.NoPartialEffect :=
  ⟨fun i _ hl => exec_of_live i hl, fun _ _ _ => exec_eq_self_of_holds, fun _ _ _ => exec_queue_out_of_marked,
    fun _ _ => step_queue_out_of_marked⟩

end Sys2Proof.Machine

/-! ## The line only grows (10_state.md rules R22, R25) -/

namespace Sys2Proof.Machine

/-- What may happen to the configuration, the queue and the line between two states: the configuration stays, and
nothing moves, or one word is accepted where there was room (rule R142), or the queue's head goes onto the line
(rule R145). -/
def MovesOneWordAtMost (s t : State) : Prop :=
  t.cfg = s.cfg ∧
    ((t.queue = s.queue ∧ t.out = s.out) ∨
      (∃ w, s.queue.length < s.cfg.qdepth ∧ t.queue = s.queue ++ [w] ∧ t.out = s.out) ∨
      ∃ w rest, s.queue = w :: rest ∧ t.queue = rest ∧ t.out = s.out ++ [line w])

theorem movesOneWordAtMost_of_eq {s t : State} (hc : t.cfg = s.cfg) (hq : t.queue = s.queue) (ho : t.out = s.out) :
    MovesOneWordAtMost s t :=
  ⟨hc, .inl ⟨hq, ho⟩⟩

theorem movesOneWordAtMost_enqueue {s : State} (w : Word32) (hr : s.hasRoom = true) :
    MovesOneWordAtMost s (s.enqueue w) :=
  ⟨rfl, .inr (.inl ⟨w, s.hasRoom_iff.mp hr, rfl, rfl⟩)⟩

theorem movesOneWordAtMost_transmit {s : State} {w : Word32} {rest : List Word32} (hq : s.queue = w :: rest) :
    MovesOneWordAtMost s (s.transmit w rest) :=
  ⟨rfl, .inr (.inr ⟨w, rest, hq, rfl, rfl⟩)⟩

@[simp] theorem movesOneWordAtMost_takeTurn (s t : State) :
    MovesOneWordAtMost s.takeTurn t ↔ MovesOneWordAtMost s t := Iff.rfl

@[simp] theorem movesOneWordAtMost_settle (s u t : State) (a : Agent) (i : Instr) :
    MovesOneWordAtMost s (u.settle a i t) ↔ MovesOneWordAtMost s t := by
  simp [MovesOneWordAtMost]

/-- Only PUSH and EMIT move a word, and each moves one. -/
theorem exec_movesOneWordAtMost {i : Instr} {s t : State} (e : exec i s = .next t) : MovesOneWordAtMost s t := by
  cases i with
  | convert h sat v =>
    obtain ⟨-, ⟨w, -, rfl⟩ | ⟨f, -, rfl⟩⟩ := execConvert_next e
    · exact movesOneWordAtMost_of_eq rfl rfl rfl
    · exact movesOneWordAtMost_of_eq rfl rfl rfl
  | push w =>
    obtain ⟨-, ⟨hr, rfl⟩ | ⟨-, rfl⟩⟩ := execPush_next e
    · exact movesOneWordAtMost_enqueue w hr
    · exact movesOneWordAtMost_of_eq rfl rfl rfl
  | emit =>
    obtain ⟨-, ⟨-, rfl⟩ | ⟨w, rest, hq, rfl⟩⟩ := execEmit_next e
    · exact movesOneWordAtMost_of_eq rfl rfl rfl
    · exact movesOneWordAtMost_transmit hq
  | reserved =>
    obtain ⟨-, rfl⟩ := execReserved_next e
    exact movesOneWordAtMost_of_eq rfl rfl rfl

theorem issue_movesOneWordAtMost {a : Agent} {r : Record} {s t : State} (e : issue a r s = .next t) :
    MovesOneWordAtMost s t := by
  obtain ⟨-, ⟨-, rfl⟩ | ⟨i, u, -, hu, rfl⟩⟩ := issue_next e
  · exact movesOneWordAtMost_of_eq rfl rfl rfl
  · simpa using exec_movesOneWordAtMost hu

/-- A step moves what the record it issues moves; a host's own step moves nothing. -/
theorem step_movesOneWordAtMost {s t : State} (e : step s = .next t) : MovesOneWordAtMost s t := by
  obtain ⟨-, ⟨r, -, hr⟩ | ⟨-, rfl⟩ | ⟨-, rfl⟩ | ⟨-, rfl⟩ | ⟨-, rfl⟩⟩ := step_next e
  · simpa using issue_movesOneWordAtMost hr
  · exact movesOneWordAtMost_of_eq rfl rfl rfl
  · exact movesOneWordAtMost_of_eq rfl rfl rfl
  · exact movesOneWordAtMost_of_eq rfl rfl rfl
  · exact movesOneWordAtMost_of_eq rfl rfl rfl

/-- Settles O33: each of the three moves a step can make is one allowed to the line and one allowed to the queue. -/
theorem configurationFixedAndLineOnlyGrows : Obligations.ConfigurationFixedAndLineOnlyGrows := by
  intro s t e
  obtain ⟨hcfg, ⟨hq, ho⟩ | ⟨w, hroom, hq, ho⟩ | ⟨w, rest, hs, hq, ho⟩⟩ := step_movesOneWordAtMost e
  · exact ⟨hcfg, .inl ho, .inl hq⟩
  · exact ⟨hcfg, .inl ho, .inr (.inl ⟨w, hq, hroom⟩)⟩
  · exact ⟨hcfg, .inr ⟨w, rest, hs, hq, ho⟩, .inr (.inr ⟨w, rest, hs, hq⟩)⟩

end Sys2Proof.Machine

/-! ## The line word (20_memory.md rule R43, 30_encoding.md rule R63) -/

namespace Sys2Proof.Machine

/-- `line(w) = {G(w), R(w), B(w)}`: the three lanes stand side by side above the low byte. -/
theorem line_eq_green_red_blue (w : Word32) : line w = greenOf w ++ redOf w ++ blueOf w := by
  have hgr : greenOf w ++ redOf w = w.extractLsb' 16 16 :=
    BitVec.extractLsb'_append_extractLsb'_eq_extractLsb' (by decide)
  have hgrb : w.extractLsb' 16 16 ++ blueOf w = line w :=
    BitVec.extractLsb'_append_extractLsb'_eq_extractLsb' (by decide)
  rw [hgr, hgrb]

/-- The bits sent are `w[31]` down to `w[8]`. -/
theorem sentBits_line (w : Word32) : sentBits (line w) = (List.range 24).map fun n => w.getLsbD (31 - n) := by
  refine List.map_congr_left fun n hn => ?_
  have hn24 : n < 24 := List.mem_range.mp hn
  have hidx : 8 + (23 - n) = 31 - n := by omega
  have hin : 23 - n < 24 := by omega
  simp [line, hidx, hin]

/-- Settles O17: the line word by its lanes and its bits, and EMIT by what it does to a queue with a word. -/
theorem lineSendsGreenRedBlueMsbFirst : Obligations.LineSendsGreenRedBlueMsbFirst := by
  refine ⟨fun w => ⟨line_eq_green_red_blue w, sentBits_line w⟩, by decide, by decide, fun s w rest hl hq => ?_⟩
  exact ⟨s.transmit w rest, execEmit_cons hl hq, by rw [State.transmit_out, line_eq_green_red_blue]⟩

end Sys2Proof.Machine

/-! ## Repeating an operation (20_memory.md rule R46) -/

namespace Sys2Proof.Machine

/-- A CONVERT that does not fault returned a word, and is answered with the same state when it is repeated: it reads
neither the queue nor the word returned before. -/
theorem execConvert_repeat {h sat v : Rat} {s t : State} (e : execConvert h sat v s = .next t)
    (ht : t.fault = none) : execConvert h sat v t = .next t ∧ t.queue = s.queue ∧ t.out = s.out := by
  obtain ⟨hl, ⟨w, hw, rfl⟩ | ⟨f, -, rfl⟩⟩ := execConvert_next e
  · exact ⟨execConvert_word hl hw, rfl, rfl⟩
  · simp at ht

/-- With room for two words, PUSH of a word twice appends it twice. -/
theorem execPush_twice {s : State} {w : Word32} (hl : s.live = true) (hroom : s.queue.length + 1 < s.cfg.qdepth) :
    ∃ t, execPush w s = .next t ∧ execPush w t = .next { s with queue := s.queue ++ [w, w] } := by
  have hr : s.hasRoom = true := s.hasRoom_iff.mpr (by omega)
  have hr' : (s.enqueue w).hasRoom = true := (s.enqueue w).hasRoom_iff.mpr (by simpa using hroom)
  refine ⟨s.enqueue w, execPush_room hl hr, ?_⟩
  rw [execPush_room (s := s.enqueue w) hl hr']
  simp [State.enqueue]

/-- EMIT twice transmits the two oldest words, in order, equal or not. -/
theorem execEmit_twice {s : State} {w₁ w₂ : Word32} {rest : List Word32} (hl : s.live = true)
    (hq : s.queue = w₁ :: w₂ :: rest) :
    ∃ t, execEmit s = .next t ∧
      execEmit t = .next { s with queue := rest, out := s.out ++ [line w₁, line w₂] } := by
  refine ⟨s.transmit w₁ (w₂ :: rest), execEmit_cons hl hq, ?_⟩
  rw [execEmit_cons (s := s.transmit w₁ (w₂ :: rest)) hl rfl]
  simp [State.transmit]

/-- Settles O27, operation by operation. -/
theorem repeatedOperations : Obligations.RepeatedOperations :=
  ⟨fun _ _ _ _ _ => execConvert_repeat, fun _ _ => execPush_twice, fun _ _ _ => execEmit_twice⟩

end Sys2Proof.Machine

/-! ## The sector table (40_color_model.md rules R84, R85, 30_encoding.md rule R65) -/

namespace Sys2Proof.Machine

/-- Away from `s = 0` the components are the multiplexer's, of R84's intermediates. -/
theorem components_chromatic {h s : Rat} (v : Rat) (hs : s ≠ 0) :
    components h s v = sectorMux (sectorIndex h) v (v * (1 - s)) (v * (1 - s * sectorFraction h))
      (v * (1 - s * (1 - sectorFraction h))) :=
  if_neg hs

/-- The hue range of a sector: below 360 the hue is not wrapped, and the index is the number of whole 60 degrees. -/
theorem sectorIndex_of_mem_range {h : Rat} (n : Int) (hlo : 60 * n ≤ h) (hhi : h < 60 * (n + 1)) (h360 : h < 360) :
    sectorIndex h = n := by
  have hwrap : hueWrap h = h := if_neg h360.ne
  rw [sectorIndex, hwrap, Int.floor_eq_iff]
  constructor <;> linarith

/-- Settles O5: the arms by the multiplexer's selector, the hue ranges by the floor. -/
theorem sectorTableSelectsTheComponents : Obligations.SectorTableSelectsTheComponents := by
  rintro h s v _ _ _ _ hs rfl rfl rfl rfl
  rw [components_chromatic v hs]
  refine ⟨fun hi => by rw [hi]; rfl, fun hi => by rw [hi]; rfl, fun hi => by rw [hi]; rfl, fun hi => by rw [hi]; rfl,
    fun hi => by rw [hi]; rfl, fun hi => sectorMux_default hi .., fun _ _ => sectorIndex_of_mem_range 0 ?_ ?_ ?_,
    fun _ _ => sectorIndex_of_mem_range 1 ?_ ?_ ?_, fun _ _ => sectorIndex_of_mem_range 2 ?_ ?_ ?_,
    fun _ _ => sectorIndex_of_mem_range 3 ?_ ?_ ?_, fun _ _ => sectorIndex_of_mem_range 4 ?_ ?_ ?_,
    fun _ _ => sectorIndex_of_mem_range 5 ?_ ?_ ?_⟩
  all_goals push_cast; linarith

end Sys2Proof.Machine

/-! ## The lanes of the packed word (30_encoding.md rules R61, R62, R64) -/

namespace Sys2Proof.Machine

/-- A packed word with its low byte is its four lanes side by side. -/
theorem pack_or_zext32 (r g b z : Byte) : pack r g b ||| zext32 z = g ++ r ++ b ++ z := by
  have hlanes := BitVec.setWidth_append_append_append_eq_shiftLeft_setWidth_or
    (b := g) (b' := r) (b'' := b) (b''' := z) (w'''' := 32)
  rw [BitVec.setWidth_eq] at hlanes
  exact hlanes.symm

theorem pack_eq_append (r g b : Byte) : pack r g b = g ++ r ++ b ++ 0#8 := by
  rw [← pack_or_zext32]; exact BitVec.or_zero.symm

section Lanes
variable (r g b z : Byte)

@[simp] theorem greenOf_append : greenOf (g ++ r ++ b ++ z) = g := by
  rw [greenOf, BitVec.extractLsb'_append_eq_of_le (by decide), BitVec.extractLsb'_append_eq_of_le (by decide)]
  exact BitVec.extractLsb'_append_eq_left

@[simp] theorem redOf_append : redOf (g ++ r ++ b ++ z) = r := by
  rw [redOf, BitVec.extractLsb'_append_eq_of_le (by decide), BitVec.extractLsb'_append_eq_of_le (by decide)]
  exact BitVec.extractLsb'_append_eq_right

@[simp] theorem blueOf_append : blueOf (g ++ r ++ b ++ z) = b := by
  rw [blueOf, BitVec.extractLsb'_append_eq_of_le (by decide)]
  exact BitVec.extractLsb'_append_eq_right

@[simp] theorem lowOf_append : lowOf (g ++ r ++ b ++ z) = z :=
  BitVec.extractLsb'_append_eq_right

@[simp] theorem greenOf_pack : greenOf (pack r g b) = g := by rw [pack_eq_append, greenOf_append]

@[simp] theorem redOf_pack : redOf (pack r g b) = r := by rw [pack_eq_append, redOf_append]

@[simp] theorem blueOf_pack : blueOf (pack r g b) = b := by rw [pack_eq_append, blueOf_append]

@[simp] theorem lowOf_pack : lowOf (pack r g b) = 0#8 := by rw [pack_eq_append, lowOf_append]

end Lanes

/-- Every word is the pack of its lanes with its low byte: the line's 24 bits above it are the three lanes. -/
theorem pack_lanes_or_low (w : Word32) : pack (redOf w) (greenOf w) (blueOf w) ||| zext32 (lowOf w) = w := by
  rw [pack_or_zext32, ← line_eq_green_red_blue]
  exact BitVec.extractLsb'_append_extractLsb' (w := 24) (len := 8)

/-- The line word does not depend on the low byte. -/
theorem line_pack_or_zext32 (w : Word32) (z : Byte) :
    line (pack (redOf w) (greenOf w) (blueOf w) ||| zext32 z) = line w := by
  rw [pack_or_zext32, line_eq_green_red_blue, greenOf_append, redOf_append, blueOf_append, line_eq_green_red_blue]

/-- Under either policy a converted word is a pack, of bytes within the window or clamped into it (rule R88). -/
theorem eq_pack_of_convert_word {policy : RangePolicy} {h s v : Rat} {w : Word32}
    (hc : convert policy h s v = .word w) : ∃ r g b : Byte, w = pack r g b := by
  unfold convert scaleAndPack at hc
  split at hc
  · split at hc
    · cases hc
    · cases hc; exact ⟨_, _, _, rfl⟩
  · cases hc; exact ⟨_, _, _, rfl⟩

theorem lowOf_of_convert_word {policy : RangePolicy} {h s v : Rat} {w : Word32}
    (hc : convert policy h s v = .word w) : lowOf w = 0 := by
  obtain ⟨r, g, b, rfl⟩ := eq_pack_of_convert_word hc
  exact lowOf_pack r g b

/-- CONVERT that is answered by a returned word, and nothing else changed, converted to that word. -/
theorem convert_word_of_execConvert {h s v : Rat} {st : State} {w : Word32}
    (e : execConvert h s v st = .next { st with ret := w }) : convert st.cfg.rangePolicy h s v = .word w := by
  obtain ⟨hl, ⟨u, hu, ht⟩ | ⟨f, -, ht⟩⟩ := execConvert_next e
  · have hwu : w = u := congrArg State.ret ht
    rw [hwu, hu]
  · have hnone : st.fault = none := (st.live_iff.mp hl).1
    have hsome : st.fault = some f := congrArg State.fault ht
    simp [hnone] at hsome

/-- Settles O16: the lanes of a pack, the pack of a word's lanes, and the words CONVERT packs. -/
theorem packedWordFields : Obligations.PackedWordFields :=
  ⟨fun r g b => ⟨rfl, greenOf_pack r g b, redOf_pack r g b, blueOf_pack r g b, lowOf_pack r g b⟩,
    fun w => ⟨rfl, rfl, rfl, rfl, (pack_lanes_or_low w).symm⟩, ⟨by decide, by decide, by decide⟩,
    fun _ _ _ _ _ e => lowOf_of_convert_word (convert_word_of_execConvert e)⟩

/-- Settles O18: CONVERT packs a zero low byte, PUSH appends the word as it is, and EMIT's line word leaves it out. -/
theorem lowByteIsIgnoredOnTheLine : Obligations.LowByteIsIgnoredOnTheLine := by
  refine ⟨fun _ _ _ _ _ => lowOf_of_convert_word, fun s w hl hroom => execPush_room hl (s.hasRoom_iff.mpr hroom),
    fun s w rest z hl => ⟨line w, execEmit_cons (s := { s with queue := w :: rest }) hl rfl, ?_⟩⟩
  have hemit := execEmit_cons (s := { s with queue := (pack (redOf w) (greenOf w) (blueOf w) ||| zext32 z) :: rest })
    hl rfl
  rw [State.transmit, line_pack_or_zext32] at hemit
  exact hemit

end Sys2Proof.Machine

/-! ## SHOW (30_encoding.md rule R71) -/

namespace Sys2Proof.Machine

theorem State.takeTurn_of_turns {s : State} {a : Agent} {turns : List Agent} (h : s.sched.turns = a :: turns) :
    s.takeTurn = { s with sched := { s.sched with turns := turns } } := by
  simp [State.takeTurn, Schedule.drawn, h]

/-- A turn of a program's host whose oldest request completes: the instruction's own effect, and the host goes on. -/
theorem step_programRequest {s u : State} {op : HostOp} {rest : List HostOp} {turns : List Agent} {i : Instr}
    (hdrv : s.driver = .records) (hprog : s.prog.program = op :: rest) (hturns : s.sched.turns = .host :: turns)
    (hdec : decode .host (s.prog.recordOf op) = .ok i) (hexec : exec i s.takeTurn = .next u)
    (hheld : s.takeTurn.holds i = false) (hlive : u.live = true) : step s = .next (u.agentDone .host) := by
  have hnext : s.nextAgent = .host := (State.takeTurn_turns_cons hturns).1
  have haction : s.actionOf s.nextAgent = .request (s.prog.recordOf op) := by
    simp [hnext, State.actionOf, State.hostAction, RecordHost.action, hdrv, hprog]
  rw [step_request haction, hnext, issue_ok hdec hexec, State.settle_done .host hheld hlive]

/-- A program's CONVERT that gives a word: its variable takes the word, which is also the word returned. -/
theorem step_programConvert {s : State} {x : Var} {h sat v : Rat} {w : Word32} {rest : List HostOp}
    {turns : List Agent} (hl : s.live = true) (hdrv : s.driver = .records)
    (hprog : s.prog.program = .convert x (.rational h) (.rational sat) (.rational v) :: rest)
    (hturns : s.sched.turns = .host :: turns) (hc : convert s.cfg.rangePolicy h sat v = .word w) :
    step s = .next { s with
      ret := w, prog := { s.prog.setVar x w with program := rest }, sched := { s.sched with turns := turns } } := by
  have hexec : exec (.convert h sat v) s.takeTurn = .next (s.takeTurn.returnWord w) :=
    execConvert_word (s := s.takeTurn) hl hc
  rw [step_programRequest hdrv hprog hturns rfl hexec rfl hl, State.takeTurn_of_turns hturns]
  simp [State.agentDone, State.returnWord, RecordHost.done, RecordHost.store, resultVar, hdrv, hprog]

/-- A program's PUSH of a variable, with room: the variable's word is appended. -/
theorem step_programPush {s : State} {x : Var} {rest : List HostOp} {turns : List Agent} (hl : s.live = true)
    (hdrv : s.driver = .records) (hprog : s.prog.program = .push x :: rest)
    (hturns : s.sched.turns = .host :: turns) (hroom : s.queue.length < s.cfg.qdepth) :
    step s = .next { s with
      queue := s.queue ++ [s.prog.getVar x], prog := { s.prog with program := rest },
      sched := { s.sched with turns := turns } } := by
  have hr : s.takeTurn.hasRoom = true := s.hasRoom_iff.mpr hroom
  have hexec : exec (.push (s.prog.getVar x)) s.takeTurn = .next (s.takeTurn.enqueue (s.prog.getVar x)) :=
    execPush_room (s := s.takeTurn) hl hr
  rw [step_programRequest hdrv hprog hturns rfl hexec (by simp [hr]) hl, State.takeTurn_of_turns hturns]
  simp [State.agentDone, State.enqueue, RecordHost.done, RecordHost.store, resultVar, hdrv, hprog]

/-- Settles O47: the first turn converts into `wT`, the second pushes what `wT` then holds. -/
theorem showConvertsThenPushes : Obligations.ShowConvertsThenPushes := by
  refine ⟨fun _ _ _ => rfl, fun s h sat v w rest turns hl hdrv hprog hturns hc hroom => ?_⟩
  refine run_cons (step_programConvert hl hdrv hprog hturns hc) (run_cons (step_programPush hl hdrv rfl rfl hroom) ?_)
  rfl

end Sys2Proof.Machine

/-! ## The kind table (30_encoding.md rules R66 to R68) -/

namespace Sys2Proof

section KindTable
variable {r : Record}

theorem decode_kind00 (a : Agent) (hk : r.kind = 0b00#2) : decode a r = onlyFrom .host a (decodeConvert r) := by
  simp [decode, hk]

theorem decode_kind01 (a : Agent) (hk : r.kind = 0b01#2) : decode a r = onlyFrom .host a (.ok (.push r.w)) := by
  simp [decode, hk]

theorem decode_kind10 (a : Agent) (hk : r.kind = 0b10#2) : decode a r = onlyFrom .serializer a (.ok .emit) := by
  simp [decode, hk]

theorem decode_kind11 (a : Agent) (hk : r.kind = 0b11#2) : decode a r = .ok .reserved := by
  simp [decode, hk]

theorem decodeConvert_rational {h s v : Rat} (hh : r.h = .rational h) (hs : r.s = .rational s)
    (hv : r.v = .rational v) : decodeConvert r = .ok (.convert h s v) := by
  simp [decodeConvert, Operand.rational?, hh, hs, hv]

end KindTable

@[simp] theorem onlyFrom_self (a : Agent) (d : Except RecordRefusal Instr) : onlyFrom a a d = d := if_pos rfl

theorem onlyFrom_of_ne {who issuer : Agent} (h : issuer ≠ who) (d : Except RecordRefusal Instr) :
    onlyFrom who issuer d = .error .wrongIssuer := if_neg h

/-- The reserved row is the one decoded row that is refused. -/
theorem refusalOf_of_decode_ok {a : Agent} {r : Record} {i : Instr} (hd : decode a r = .ok i) :
    refusalOf a r = if i.wf then none else some .reservedKind := by
  rw [refusalOf, hd]
  cases i <;> rfl

theorem refusalOf_of_decode_error {a : Agent} {r : Record} {why : RecordRefusal} (hd : decode a r = .error why) :
    refusalOf a r = some why := by
  rw [refusalOf, hd]

/-- Settles O19, a row of R66 and a refusal of R68 at a time. -/
theorem decoderFollowsTheKindTable : Obligations.DecoderFollowsTheKindTable := by
  intro a r
  refine ⟨?convert, ?push, ?emit, ?reserved, ?emitFromHost, ?hostKindFromSerializer⟩
  case convert =>
    rintro h s v hk rfl hh hs hv
    have hd : decode .host r = .ok (.convert h s v) := by
      rw [decode_kind00 _ hk, onlyFrom_self, decodeConvert_rational hh hs hv]
    exact ⟨hd, refusalOf_of_decode_ok hd⟩
  case push =>
    rintro hk rfl
    have hd : decode .host r = .ok (.push r.w) := by rw [decode_kind01 _ hk, onlyFrom_self]
    exact ⟨hd, refusalOf_of_decode_ok hd⟩
  case emit =>
    rintro hk rfl
    have hd : decode .serializer r = .ok .emit := by rw [decode_kind10 _ hk, onlyFrom_self]
    exact ⟨hd, refusalOf_of_decode_ok hd⟩
  case reserved =>
    intro hk
    exact ⟨decode_kind11 a hk, refusalOf_of_decode_ok (decode_kind11 a hk)⟩
  case emitFromHost =>
    rintro hk rfl
    exact refusalOf_of_decode_error ((decode_kind10 _ hk).trans (onlyFrom_of_ne (by decide) _))
  case hostKindFromSerializer =>
    rintro (hk | hk) rfl
    · exact refusalOf_of_decode_error ((decode_kind00 _ hk).trans (onlyFrom_of_ne (by decide) _))
    · exact refusalOf_of_decode_error ((decode_kind01 _ hk).trans (onlyFrom_of_ne (by decide) _))

end Sys2Proof

/-! ## The sector index and the fraction (40_color_model.md rules R82, R83) -/

namespace Sys2Proof.Machine

theorem hueWrap_of_ne {h : Rat} (h360 : h ≠ 360) : hueWrap h = h := if_neg h360

@[simp] theorem hueWrap_threeSixty : hueWrap 360 = 0 := if_pos rfl

theorem sectorIndex_of_ne {h : Rat} (h360 : h ≠ 360) : sectorIndex h = ⌊h / 60⌋ := by
  rw [sectorIndex, hueWrap_of_ne h360]

theorem sectorFraction_of_ne {h : Rat} (h360 : h ≠ 360) : sectorFraction h = h / 60 - ⌊h / 60⌋ := by
  rw [sectorFraction, sectorIndex_of_ne h360, hueWrap_of_ne h360]

theorem sectorFraction_nonneg (h : Rat) : 0 ≤ sectorFraction h := Int.fract_nonneg (hueWrap h / 60)

theorem sectorFraction_lt_one (h : Rat) : sectorFraction h < 1 := Int.fract_lt_one (hueWrap h / 60)

/-- The selectors 0..5 are those of the wrapped hues in `[0, 360)`. -/
theorem sectorIndex_mem_iff (h : Rat) :
    (0 ≤ sectorIndex h ∧ sectorIndex h ≤ 5) ↔ (0 ≤ hueWrap h ∧ hueWrap h < 360) := by
  have hlo : 0 ≤ sectorIndex h ↔ 0 ≤ hueWrap h := by
    rw [sectorIndex, Int.floor_nonneg, le_div_iff₀ (by norm_num), zero_mul]
  have hhi : sectorIndex h ≤ 5 ↔ hueWrap h < 360 := by
    rw [sectorIndex, ← Int.lt_add_one_iff, Int.floor_lt, div_lt_iff₀ (by norm_num)]; norm_num
  rw [hlo, hhi]

/-- The first sector below 0. -/
theorem sectorIndex_eq_neg_one {h : Rat} (hlo : -60 ≤ hueWrap h) (hhi : hueWrap h < 0) : sectorIndex h = -1 := by
  rw [sectorIndex, Int.floor_eq_iff]
  constructor <;> push_cast <;> linarith

/-- Settles O4: the wrap names `h'`, and the rest is about the floor of `h' / 60`. -/
theorem sectorIndexIsTheFloor : Obligations.SectorIndexIsTheFloor := by
  intro h h' hwrapped hunwrapped
  have hw : hueWrap h = h' := by
    by_cases h360 : h = 360
    · rw [h360, hueWrap_threeSixty, hwrapped h360]
    · rw [hueWrap_of_ne h360, hunwrapped h360]
  subst hw
  refine ⟨rfl, rfl, rfl, sectorFraction_nonneg h, sectorFraction_lt_one h, sectorIndex_mem_iff h, fun hlo hhi => ?_⟩
  have hi : sectorIndex h = -1 := sectorIndex_eq_neg_one hlo hhi
  exact ⟨hi, by rw [sectorFraction, hi]; push_cast; ring⟩

end Sys2Proof.Machine

/-! ## Scaling (40_color_model.md rules R86, R87) -/

namespace Sys2Proof.Machine

/-- Truncation is toward zero: above -1 nothing is rounded down past 0. -/
theorem trunc_eq_zero {y : Rat} (hlo : -1 < y) (hhi : y < 0) : trunc y = 0 := by
  rw [trunc_of_neg hhi, Int.ceil_eq_zero_iff]
  exact ⟨hlo, hhi.le⟩

theorem trunc_nonneg_iff (y : Rat) : 0 ≤ trunc y ↔ -1 < y := by
  rcases lt_or_ge y 0 with hy | hy
  · rw [trunc_of_neg hy, ← Int.sub_one_lt_iff, zero_sub, Int.lt_ceil]; norm_num
  · rw [trunc_of_nonneg hy, Int.floor_nonneg]
    exact ⟨fun _ => by linarith, fun _ => hy⟩

theorem trunc_le_255_iff (y : Rat) : trunc y ≤ 255 ↔ y < 256 := by
  rcases lt_or_ge y 0 with hy | hy
  · rw [trunc_of_neg hy, Int.ceil_le]; push_cast
    exact ⟨fun _ => by linarith, fun _ => by linarith⟩
  · rw [trunc_of_nonneg hy, ← Int.lt_add_one_iff, Int.floor_lt]; norm_num

/-- The window is exactly where the truncated product is a byte. -/
theorem inWindow_iff_trunc (c : Rat) : inWindow c ↔ 0 ≤ trunc (c * 255) ∧ trunc (c * 255) ≤ 255 := by
  rw [trunc_nonneg_iff, trunc_le_255_iff]

theorem scale8_toNat {c : Rat} (hc : inWindow c) : ((scale8 c).toNat : Int) = trunc (c * 255) := by
  obtain ⟨hlo, hhi⟩ := (inWindow_iff_trunc c).mp hc
  rw [scale8, BitVec.toNat_ofInt]
  omega

/-- A product from an integer up to the next scales to that integer. -/
theorem scale8_eq_ofNat {c : Rat} (n : Nat) (hlo : n ≤ c * 255) (hhi : c * 255 < n + 1) :
    scale8 c = BitVec.ofNat 8 n := by
  have hfloor : ⌊c * 255⌋ = n := Int.floor_eq_iff.mpr ⟨hlo, hhi⟩
  rw [scale8, trunc_of_nonneg (n.cast_nonneg.trans hlo), hfloor, BitVec.ofInt_natCast]

theorem scale8_of_neg {c : Rat} (hc : inWindow c) (hneg : c * 255 < 0) : scale8 c = 0#8 := by
  rw [scale8, trunc_eq_zero hc.1 hneg]; rfl

theorem scale8_of_top {c : Rat} (hc : inWindow c) (htop : 255 ≤ c * 255) : scale8 c = 255#8 :=
  scale8_eq_ofNat 255 (by exact_mod_cast htop) (by push_cast; linarith [hc.2])

theorem clamp8_of_above {c : Rat} (hc : 256 ≤ c * 255) : clamp8 c = 255#8 := by
  rw [clamp8, if_neg fun hw => hc.not_gt hw.2, if_pos hc]; rfl

theorem clamp8_of_below {c : Rat} (hc : c * 255 ≤ -1) : clamp8 c = 0#8 := by
  rw [clamp8, if_neg fun hw => hc.not_gt hw.1, if_neg (by linarith)]; rfl

end Sys2Proof.Machine

/-! ## What CONVERT answers (40_color_model.md rules R81, R87 to R89, R97) -/

namespace Sys2Proof.Machine

/-- The three components, in the order rule R87 looks at them. -/
abbrev Rgb.lanes (c : Rgb) : List Rat := [c.r, c.g, c.b]

section Answers
variable {st : State} {h s v : Rat}

theorem firstOutside_red {x : Rgb} (hr : ¬ inWindow x.r) : firstOutside x = some (.range .red x.r) := if_pos hr

theorem firstOutside_green {x : Rgb} (hr : inWindow x.r) (hg : ¬ inWindow x.g) :
    firstOutside x = some (.range .green x.g) := by
  rw [firstOutside, if_neg (not_not.mpr hr), if_pos hg]

theorem firstOutside_blue {x : Rgb} (hr : inWindow x.r) (hg : inWindow x.g) (hb : ¬ inWindow x.b) :
    firstOutside x = some (.range .blue x.b) := by
  rw [firstOutside, if_neg (not_not.mpr hr), if_neg (not_not.mpr hg), if_pos hb]

theorem exec_convert_word {w : Word32} (hl : st.live = true) (hc : convert st.cfg.rangePolicy h s v = .word w) :
    exec (.convert h s v) st = .next { st with ret := w } :=
  execConvert_word hl hc

theorem exec_convert_range {f : Fault} (hl : st.live = true) (hc : convert st.cfg.rangePolicy h s v = .range f) :
    exec (.convert h s v) st = .next { st with fault := some f } :=
  execConvert_range hl hc

/-- Inside the window CONVERT returns the pack of the truncated products, under either policy. -/
theorem exec_convert_inside (hl : st.live = true) (hin : ∀ x ∈ (components h s v).lanes, inWindow x) :
    exec (.convert h s v) st = .next { st with
      ret := pack (scale8 (components h s v).r) (scale8 (components h s v).g) (scale8 (components h s v).b) } :=
  exec_convert_word hl (convert_inside (hin _ (by simp)) (hin _ (by simp)) (hin _ (by simp)))

/-- Under `clamp` CONVERT returns the pack of the clamped products. -/
theorem exec_convert_clamp (hl : st.live = true) (hp : st.cfg.rangePolicy = .clamp) :
    exec (.convert h s v) st = .next { st with
      ret := pack (clamp8 (components h s v).r) (clamp8 (components h s v).g) (clamp8 (components h s v).b) } :=
  exec_convert_word hl (by rw [hp]; rfl)

/-- Under `fault` CONVERT marks the fault of the first channel outside the window. -/
theorem exec_convert_firstOutside {f : Fault} (hl : st.live = true) (hp : st.cfg.rangePolicy = .fault)
    (hf : firstOutside (components h s v) = some f) :
    exec (.convert h s v) st = .next { st with fault := some f } :=
  exec_convert_range hl (by rw [hp, convert, scaleAndPack, hf])

/-- Only `fault` faults. -/
theorem policy_of_convert_range {policy : RangePolicy} {f : Fault} (hc : convert policy h s v = .range f) :
    policy = .fault := by
  cases policy with
  | fault => rfl
  | clamp => cases hc

/-- A word that `fault` gives was scaled without a fault, and is the word of either policy. -/
theorem convert_word_of_fault {w : Word32} (policy : RangePolicy) (hc : convert .fault h s v = .word w) :
    convert policy h s v = .word w := by
  by_cases hr : inWindow (components h s v).r
  · by_cases hg : inWindow (components h s v).g
    · by_cases hb : inWindow (components h s v).b
      · rw [convert_inside hr hg hb] at hc ⊢; exact hc
      · rw [convert, scaleAndPack, firstOutside_blue hr hg hb] at hc; cases hc
    · rw [convert, scaleAndPack, firstOutside_green hr hg] at hc; cases hc
  · rw [convert, scaleAndPack, firstOutside_red hr] at hc; cases hc

/-- A written vector: the word that evaluation gives under `fault` is returned in every live state. -/
theorem exec_convert_of_fault {w : Word32} (hl : st.live = true) (hc : convert .fault h s v = .word w) :
    exec (.convert h s v) st = .next { st with ret := w } :=
  exec_convert_word hl (convert_word_of_fault _ hc)

/-- CONVERT reads its operands through the components alone. -/
theorem exec_convert_congr {h' : Rat} (hc : components h s v = components h' s v) :
    exec (.convert h s v) st = exec (.convert h' s v) st := by
  simp only [exec, execConvert, convert, hc]

/-- Saturation zero bypasses the hue: the components are all the value. -/
theorem components_zero (h v : Rat) : components h 0 v = ⟨v, v, v⟩ := if_pos rfl

/-- A gray inside the window has its truncated product in each lane. -/
theorem exec_convert_gray {c : Rat} (h : Rat) (hl : st.live = true) (hc : inWindow c) :
    exec (.convert h 0 c) st = .next { st with ret := pack (scale8 c) (scale8 c) (scale8 c) } := by
  have hin := exec_convert_inside (h := h) (s := 0) (v := c) hl (by simpa [components_zero] using hc)
  rwa [components_zero] at hin

/-- A gray whose product lies from an integer up to the next has that integer in each lane. -/
theorem exec_convert_gray_ofNat {c : Rat} (h : Rat) {n : Nat} (hl : st.live = true) (hn : n ≤ 255)
    (hlo : n ≤ c * 255) (hhi : c * 255 < n + 1) :
    exec (.convert h 0 c) st =
      .next { st with ret := pack (BitVec.ofNat 8 n) (BitVec.ofNat 8 n) (BitVec.ofNat 8 n) } := by
  have hn' : (n : Rat) ≤ 255 := by exact_mod_cast hn
  have hn0 : (0 : Rat) ≤ n := n.cast_nonneg
  have hin : inWindow c := ⟨by linarith, by linarith⟩
  rw [exec_convert_gray h hl hin, scale8_eq_ofNat n hlo hhi]

end Answers

/-- A byte listed beside its component is the byte `f` gives that component. -/
theorem mem_lanes {f : Rat → Byte} {c : Rgb} {x : Rat} {b : Byte}
    (hm : (x, b) ∈ [(c.r, f c.r), (c.g, f c.g), (c.b, f c.b)]) : x ∈ c.lanes ∧ b = f x := by
  obtain ⟨y, hy, hxb⟩ := List.mem_map (f := fun y => (y, f y)) (l := c.lanes).mp hm
  cases hxb
  exact ⟨hy, rfl⟩

/-- Settles O2: the low byte of every pack is zero, and the bytes are the scaled or the clamped products. -/
theorem convertPacksTheScaledComponents : Obligations.ConvertPacksTheScaledComponents := by
  refine ⟨fun st h s v hl hr hg hb => ?_, fun st h s v hl hp => ?_⟩
  · refine ⟨_, _, _, _, scale8_toNat hr, scale8_toNat hg, scale8_toNat hb, rfl, lowOf_pack _ _ _, ?_⟩
    exact exec_convert_word hl (convert_inside hr hg hb)
  · exact ⟨_, rfl, lowOf_pack _ _ _, exec_convert_clamp hl hp⟩

/-- Settles O6: the window by the truncation, and CONVERT by its gray path. -/
theorem scalingTruncatesTowardZero : Obligations.ScalingTruncatesTowardZero := by
  refine ⟨inWindow_iff_trunc, fun _ => trunc_of_nonneg, fun _ => trunc_eq_zero, fun st h c hl hc => ?_,
    fun st h hl => ?_⟩
  · exact ⟨scale8 c, scale8_toNat hc, exec_convert_gray h hl hc⟩
  · exact exec_convert_gray_ofNat (n := 254) h hl (by norm_num) (by norm_num) (by norm_num)

/-- Settles O7: the first channel outside, or the three clamped bytes. -/
theorem rangePolicyDecidesOutsideTheWindow : Obligations.RangePolicyDecidesOutsideTheWindow := by
  rintro st h s v _ hl rfl
  refine ⟨fun hp hr => exec_convert_firstOutside hl hp (firstOutside_red hr),
    fun hp hr hg => exec_convert_firstOutside hl hp (firstOutside_green hr hg),
    fun hp hr hg hb => exec_convert_firstOutside hl hp (firstOutside_blue hr hg hb), fun hp => ?_⟩
  refine ⟨_, _, _, exec_convert_clamp hl hp, fun x b hm => ?_⟩
  obtain ⟨-, rfl⟩ := mem_lanes hm
  exact ⟨fun hin => by rw [clamp8_of_inWindow hin, scale8_toNat hin], clamp8_of_above, clamp8_of_below⟩

/-- Settles O14: the two states give `convert` the same arguments, and a range result comes from `fault` alone. -/
theorem convertDependsOnOperandsAndPolicyAlone : Obligations.ConvertDependsOnOperandsAndPolicyAlone := by
  intro st st' h s v hl hl' hp
  cases hc : convert st.cfg.rangePolicy h s v with
  | word w => exact .inl ⟨w, exec_convert_word hl hc, exec_convert_word hl' (hp ▸ hc)⟩
  | range f =>
    obtain ⟨ch, c⟩ := f
    exact .inr ⟨ch, c, policy_of_convert_range hc, exec_convert_range hl hc, exec_convert_range hl' (hp ▸ hc)⟩

/-- Settles O15: every clause is a gray whose product lies from an integer up to the next. -/
theorem truncationBoundariesAreExact : Obligations.TruncationBoundariesAreExact := by
  intro st h hl
  refine ⟨fun n hn => exec_convert_gray_ofNat h hl hn ?_ ?_,
    fun n c hn hlo hhi => exec_convert_gray_ofNat h hl hn.le ?_ ?_,
    exec_convert_gray_ofNat (n := 254) h hl (by norm_num) (by norm_num) (by norm_num),
    exec_convert_gray_ofNat (n := 84) h hl (by norm_num) (by norm_num) (by norm_num)⟩
  all_goals linarith

/-- Settles O11, by evaluation of the seven vectors. -/
theorem primariesAndSecondaries : Obligations.PrimariesAndSecondaries := fun _ hl =>
  ⟨exec_convert_of_fault hl (by decide +kernel), exec_convert_of_fault hl (by decide +kernel),
    exec_convert_of_fault hl (by decide +kernel), exec_convert_of_fault hl (by decide +kernel),
    exec_convert_of_fault hl (by decide +kernel), exec_convert_of_fault hl (by decide +kernel),
    exec_convert_of_fault hl (by decide +kernel)⟩

end Sys2Proof.Machine

/-! ## The bypass and the wrap (40_color_model.md rules R81, R90, R93) -/

namespace Sys2Proof.Machine

theorem sectorMux_same (i : Int) (v : Rat) : sectorMux i v v v v = ⟨v, v, v⟩ := by
  unfold sectorMux
  split <;> rfl

theorem interpP_zero (v : Rat) : interpP 0 v = v := by simp [interpP]

theorem interpQ_zero (f v : Rat) : interpQ f 0 v = v := by simp [interpQ]

theorem interpT_zero (f v : Rat) : interpT f 0 v = v := by simp [interpT]

/-- The chromatic path at saturation zero gives what the bypass gives. -/
theorem chromatic_zero (h v : Rat) : chromatic h 0 v = ⟨v, v, v⟩ := by
  rw [chromatic, interpP_zero, interpQ_zero, interpT_zero, sectorMux_same]

/-- The hue is read through the wrap alone. -/
theorem components_congr_hueWrap {h h' : Rat} (s v : Rat) (hw : hueWrap h = hueWrap h') :
    components h s v = components h' s v := by
  simp only [components, chromatic, sectorFraction, sectorIndex, hw]

theorem components_threeSixty (s v : Rat) : components 360 s v = components 0 s v :=
  components_congr_hueWrap s v (by rw [hueWrap_threeSixty, hueWrap_of_ne (by norm_num)])

/-- Settles O3: the bypass and the chromatic path at saturation zero, and the rule's example by evaluation. -/
theorem achromaticBypassReadsNoHue : Obligations.AchromaticBypassReadsNoHue := by
  refine ⟨components_zero, fun _ _ _ hs => if_neg hs, fun h h' v st => exec_convert_congr ?_, chromatic_zero,
    fun i f v => ⟨interpP_zero v, interpQ_zero f v, interpT_zero f v, ?_⟩,
    fun _ hl => exec_convert_of_fault hl (by decide +kernel)⟩
  · rw [components_zero, components_zero]
  · rw [interpP_zero, interpQ_zero, interpT_zero, sectorMux_same]

/-- Settles O10: 360 wraps to 0, and the two vectors by evaluation. -/
theorem hueThreeSixtyConvertsAsZero : Obligations.HueThreeSixtyConvertsAsZero :=
  ⟨fun _ s v => exec_convert_congr (components_threeSixty s v), fun _ hl =>
    ⟨exec_convert_of_fault hl (by decide +kernel), exec_convert_of_fault hl (by decide +kernel)⟩⟩

end Sys2Proof.Machine

/-! ## The nominal and the calibrated domain (40_color_model.md rules R91, R92, R96) -/

namespace Sys2Proof.Machine

/-- The form of all four candidates of rule R84: `v` with a part `g` of the saturation taken off. -/
def IsInterp (s v c : Rat) : Prop := ∃ g : Rat, 0 ≤ g ∧ g ≤ 1 ∧ c = v * (1 - s * g)

/-- The candidates of rule R84: `v`, `p`, `q` and `t` take off none, all, `f` and `1 - f` of the saturation. -/
theorem isInterp_candidates (h s v : Rat) :
    ∀ x ∈ [v, interpP s v, interpQ (sectorFraction h) s v, interpT (sectorFraction h) s v], IsInterp s v x := by
  have h0 := sectorFraction_nonneg h
  have h1 := sectorFraction_lt_one h
  have hv : IsInterp s v v := ⟨0, le_rfl, zero_le_one, by ring⟩
  have hp : IsInterp s v (interpP s v) := ⟨1, zero_le_one, le_rfl, by rw [mul_one]; rfl⟩
  have hq : IsInterp s v (interpQ (sectorFraction h) s v) := ⟨sectorFraction h, h0, h1.le, rfl⟩
  have ht : IsInterp s v (interpT (sectorFraction h) s v) :=
    ⟨1 - sectorFraction h, by linarith, by linarith, rfl⟩
  simp [hv, hp, hq, ht]

/-- Whatever the hue, each component is one of the candidates, and at saturation zero it is `v`. -/
theorem isInterp_components (h s v : Rat) : ∀ x ∈ (components h s v).lanes, IsInterp s v x := by
  have hcand := isInterp_candidates h s v
  simp only [List.forall_mem_cons] at hcand ⊢
  obtain ⟨hv, hp, hq, ht, hnil⟩ := hcand
  unfold components
  split
  · exact ⟨hv, hv, hv, hnil⟩
  · obtain ⟨hr, hg, hb⟩ := sectorMux_mem (sectorIndex h) _ _ _ _ (IsInterp s v) hv hp hq ht
    exact ⟨hr, hg, hb, hnil⟩

/-- On the nominal saturations a candidate lies between 0 and the value. -/
theorem IsInterp.nominal {s v c : Rat} (hc : IsInterp s v c) (hs0 : 0 ≤ s) (hs1 : s ≤ 1) (hv : 0 ≤ v) :
    0 ≤ c ∧ c ≤ v := by
  obtain ⟨g, hg0, hg1, rfl⟩ := hc
  have hsg0 : 0 ≤ s * g := mul_nonneg hs0 hg0
  have hsg1 : s * g ≤ 1 := mul_le_one₀ hs1 hg0 hg1
  exact ⟨mul_nonneg hv (by linarith), mul_le_of_le_one_right hv (by linarith)⟩

/-- On the calibrated domain the factor of `v` lies in `[0, 4095 / 4083]`, and the candidate in its multiples. -/
theorem IsInterp.calibrated {s v c : Rat} (hc : IsInterp s v c) (hs0 : -12 / 4083 ≤ s) (hs1 : s ≤ 1)
    (hv0 : -12 / 4083 ≤ v) (hv1 : v ≤ 1) : -12 * 4095 / 4083 ^ 2 ≤ c ∧ c ≤ 4095 / 4083 := by
  obtain ⟨g, hg0, hg1, rfl⟩ := hc
  have hsg1 : s * g ≤ g := mul_le_of_le_one_left hg0 hs1
  have hsg0 : -12 / 4083 * g ≤ s * g := mul_le_mul_of_nonneg_right hs0 hg0
  have hfactor : 0 ≤ 1 - s * g := by linarith
  have hlo : -12 / 4083 * (1 - s * g) ≤ v * (1 - s * g) := mul_le_mul_of_nonneg_right hv0 hfactor
  have hhi : v * (1 - s * g) ≤ 1 - s * g := mul_le_of_le_one_left hfactor hv1
  constructor <;> linarith

/-- Components in `[0, 1]` are inside the window. -/
theorem inWindow_of_nominal {c : Rat} (h0 : 0 ≤ c) (h1 : c ≤ 1) : inWindow c := ⟨by linarith, by linarith⟩

/-- The calibrated components are inside the window. -/
theorem inWindow_of_calibrated {c : Rat} (hlo : -12 * 4095 / 4083 ^ 2 ≤ c) (hhi : c ≤ 4095 / 4083) : inWindow c :=
  ⟨by linarith, by linarith⟩

/-- Settles O8: the candidates lie in `[0, v]`, so the products are inside the window and truncation is the floor. -/
theorem nominalDomainNeverFaults : Obligations.NominalDomainNeverFaults := by
  intro st h s v hl hs0 hs1 hv0 hv1
  have hcomp : ∀ x ∈ (components h s v).lanes, 0 ≤ x ∧ x ≤ 1 := fun x hx =>
    have ⟨h0, h1⟩ := (isInterp_components h s v x hx).nominal hs0 hs1 hv0
    ⟨h0, h1.trans hv1⟩
  have hfloor : ∀ x ∈ (components h s v).lanes, ((scale8 x).toNat : Int) = ⌊x * 255⌋ := fun x hx => by
    obtain ⟨h0, h1⟩ := hcomp x hx
    rw [scale8_toNat (inWindow_of_nominal h0 h1), trunc_of_nonneg (by linarith)]
  refine ⟨fun x hx => (isInterp_candidates h s v x hx).nominal hs0 hs1 hv0, fun x hx => ?_,
    _, _, _, hfloor _ (by simp), hfloor _ (by simp), hfloor _ (by simp),
    exec_convert_inside hl fun x hx => inWindow_of_nominal (hcomp x hx).1 (hcomp x hx).2⟩
  obtain ⟨h0, h1⟩ := hcomp x hx
  constructor <;> linarith

/-- Settles O9: the components' bounds put the products inside the window, at each end of it where they leave
`[0, 255]`. -/
theorem calibratedDomainNeverFaults : Obligations.CalibratedDomainNeverFaults := by
  intro st h s v hl hs0 hs1 hv0 hv1
  have hcomp : ∀ x ∈ (components h s v).lanes, -12 * 4095 / 4083 ^ 2 ≤ x ∧ x ≤ 4095 / 4083 := fun x hx =>
    (isInterp_components h s v x hx).calibrated hs0 hs1 hv0 hv1
  have hin : ∀ x ∈ (components h s v).lanes, inWindow x := fun x hx =>
    inWindow_of_calibrated (hcomp x hx).1 (hcomp x hx).2
  refine ⟨fun x hx => ?_, _, _, _, exec_convert_inside hl hin, fun x b hm => ?_⟩
  · obtain ⟨hlo, hhi⟩ := hcomp x hx
    exact ⟨hlo, hhi, by linarith, by linarith, hin x hx⟩
  · obtain ⟨hx, rfl⟩ := mem_lanes hm
    exact ⟨scale8_toNat (hin x hx), scale8_of_neg (hin x hx), scale8_of_top (hin x hx)⟩

/-- Where the selector is outside 0..4 and the hue is not wrapped, the default arm takes the fraction of `h / 60`. -/
theorem components_default {h s : Rat} (v : Rat) (hs : s ≠ 0) (h360 : h ≠ 360)
    (hi : sectorIndex h < 0 ∨ 5 ≤ sectorIndex h) :
    components h s v = ⟨v, v * (1 - s), v * (1 - s * (h / 60 - ⌊h / 60⌋))⟩ := by
  rw [components_chromatic v hs, sectorMux_default hi, sectorFraction_of_ne h360]

theorem six_le_sectorIndex {h : Rat} (hh : 360 < h) : 6 ≤ sectorIndex h := by
  rw [sectorIndex_of_ne hh.ne', Int.le_floor]
  push_cast; linarith

theorem sectorIndex_le_neg_one {h : Rat} (hh : h < 0) : sectorIndex h ≤ -1 := by
  rw [sectorIndex_of_ne (by linarith), ← Int.lt_add_one_iff, Int.floor_lt]
  push_cast; linarith

/-- Settles O13: the default arm by the selector's bounds, the examples by evaluation, and the calibrated domain by
O9. -/
theorem outOfDomainHuesTakeTheDefaultArm : Obligations.OutOfDomainHuesTakeTheDefaultArm := by
  refine ⟨fun h s v hs => ⟨six_le_sectorIndex, sectorIndex_le_neg_one, ?_⟩, fun _ hl =>
    ⟨exec_convert_of_fault hl (by decide +kernel), exec_convert_of_fault hl (by decide +kernel),
      exec_convert_of_fault hl (by decide +kernel), exec_convert_of_fault hl (by decide +kernel)⟩,
    fun st s v hl hs0 hs1 hv0 hv1 h => ?_⟩
  · rintro (hh | hh)
    · exact components_default v hs hh.ne' (.inr (by linarith [six_le_sectorIndex hh]))
    · exact components_default v hs (by linarith) (.inl (by linarith [sectorIndex_le_neg_one hh]))
  · obtain ⟨-, _, _, _, hword, -⟩ := calibratedDomainNeverFaults st h s v hl hs0 hs1 hv0 hv1
    exact ⟨_, hword⟩

end Sys2Proof.Machine

/-! ## Continuity in the hue (40_color_model.md rule R95) -/

namespace Sys2Proof.Machine

/-- The identity from 0 to 1, flat outside. -/
def ramp (x : Rat) : Rat := max 0 (min x 1)

/-- The part of the saturation that each channel loses at the hue `60 x`: for `x` in `[-1, 6]` the multiplexer's arms
joined into one continuous formula per channel. -/
def hueDeficits (x : Rat) : Rgb where
  r := ramp (min (x - 1) (5 - x))
  g := ramp (max (1 - x) (x - 3))
  b := ramp (min (x + 1) (max (3 - x) (x - 5)))

/-- The components at which each channel loses its part `d` of the saturation. -/
def Rgb.blend (d : Rgb) (s v : Rat) : Rgb := ⟨v * (1 - s * d.r), v * (1 - s * d.g), v * (1 - s * d.b)⟩

theorem continuous_ramp : Continuous ramp := by unfold ramp; fun_prop

theorem continuous_hueDeficits :
    Continuous (fun x => (hueDeficits x).r) ∧ Continuous (fun x => (hueDeficits x).g) ∧
      Continuous (fun x => (hueDeficits x).b) :=
  ⟨continuous_ramp.comp (by fun_prop), continuous_ramp.comp (by fun_prop), continuous_ramp.comp (by fun_prop)⟩

theorem continuous_attenuated {deficit : Rat → Rat} (hd : Continuous deficit) (s v : Rat) :
    Continuous fun h => v * (1 - s * deficit (h / 60)) := by
  fun_prop

/-- In each sector from -1 to 5 the deficits are the multiplexer's: none for `v`, all for `p`, `f` for `q` and `1 - f`
for `t`. -/
theorem hueDeficits_eq_sectorMux {i : Int} {f : Rat} (hi0 : -1 ≤ i) (hi5 : i ≤ 5) (h0 : 0 ≤ f) (h1 : f < 1) :
    hueDeficits (i + f) = sectorMux i 0 1 f (1 - f) := by
  unfold hueDeficits ramp
  interval_cases i <;> simp only [sectorMux, Rgb.mk.injEq] <;> push_cast
  all_goals grind

/-- The multiplexer selects among R84's candidates as it selects among their deficits. -/
theorem components_eq_blend_sectorMux (h s v : Rat) :
    components h s v =
      (sectorMux (sectorIndex h) 0 1 (sectorFraction h) (1 - sectorFraction h)).blend s v := by
  by_cases hs : s = 0
  · simp [hs, components_zero, Rgb.blend]
  · rw [components_chromatic v hs]
    unfold sectorMux
    split <;> simp [Rgb.blend]

theorem components_eq_blend_of_lt {h : Rat} (s v : Rat) (hlo : -60 ≤ h) (hhi : h < 360) :
    components h s v = (hueDeficits (h / 60)).blend s v := by
  have hi0 : -1 ≤ sectorIndex h := by rw [sectorIndex_of_ne hhi.ne, Int.le_floor]; push_cast; linarith
  have hi6 : sectorIndex h < 6 := by rw [sectorIndex_of_ne hhi.ne, Int.floor_lt]; push_cast; linarith
  have hsplit : h / 60 = sectorIndex h + sectorFraction h := by rw [sectorFraction, hueWrap_of_ne hhi.ne]; ring
  rw [hsplit, hueDeficits_eq_sectorMux hi0 (Int.lt_add_one_iff.mp hi6) (sectorFraction_nonneg h)
    (sectorFraction_lt_one h), components_eq_blend_sectorMux]

/-- On `[-60, 360]` the components follow the continuous formula: 360 is wrapped to 0, where it has the same value. -/
theorem components_eq_blend {h : Rat} (s v : Rat) (hh : h ∈ Set.Icc (-60) 360) :
    components h s v = (hueDeficits (h / 60)).blend s v := by
  rcases hh.2.eq_or_lt with rfl | hlt
  · have hwrap : hueDeficits (0 / 60) = hueDeficits (360 / 60) := by decide +kernel
    rw [components_threeSixty, components_eq_blend_of_lt s v (by norm_num) (by norm_num), hwrap]
  · exact components_eq_blend_of_lt s v hh.1 hlt

/-- Blue on the default arm, sector by sector. -/
theorem components_b_default {h s : Rat} (v : Rat) {n : Int} (hs : s ≠ 0) (h360 : h ≠ 360) (hn : n < 0 ∨ 5 ≤ n)
    (hlo : 60 * n ≤ h) (hhi : h < 60 * (n + 1)) : (components h s v).b = v * (1 - s * (h / 60 - n)) := by
  have hfloor : ⌊h / 60⌋ = n := Int.floor_eq_iff.mpr ⟨by linarith, by linarith⟩
  rw [components_default v hs h360 (by rwa [sectorIndex_of_ne h360, hfloor]), hfloor]

section Jumps
open Filter Topology
variable {s v : Rat}

/-- Where blue is continuous, it has the value that a default sector beside the hue extends to. -/
theorem blue_eq_of_continuousAt {a : Rat} {n : Int} {l : Filter Rat} [l.NeBot] (hs : s ≠ 0) (hn : n < 0 ∨ 5 ≤ n)
    (hcont : ContinuousAt (fun h => (components h s v).b) a) (hl : l ≤ 𝓝 a)
    (hsector : ∀ᶠ h : Rat in l, h ≠ 360 ∧ 60 * n ≤ h ∧ h < 60 * (n + 1)) :
    (components a s v).b = v * (1 - s * (a / 60 - n)) := by
  have hline : ContinuousAt (fun h : Rat => v * (1 - s * (h / 60 - n))) a := by fun_prop
  refine tendsto_nhds_unique_of_eventuallyEq (hcont.mono_left hl) (hline.mono_left hl) ?_
  filter_upwards [hsector] with h ⟨h360, hlo, hhi⟩
  exact components_b_default v hs h360 hn hlo hhi

/-- The two ends of a default sector differ. -/
theorem sector_ends_ne (hs : s ≠ 0) (hv : v ≠ 0) : v * (1 - s * 0) ≠ v * (1 - s * 1) := by
  intro heq
  exact mul_ne_zero hv hs (by linarith)

/-- At 360, wrapped to 0, blue is `p`; the sector on its right starts from `v`. -/
theorem not_continuousAt_blue_threeSixty (hs : s ≠ 0) (hv : v ≠ 0) :
    ¬ ContinuousAt (fun h => (components h s v).b) 360 := by
  intro hcont
  have hright : (components 360 s v).b = v * (1 - s * (360 / 60 - (6 : Int))) := by
    refine blue_eq_of_continuousAt (l := 𝓝[>] 360) hs (by norm_num) hcont nhdsWithin_le_nhds ?_
    filter_upwards [Ioo_mem_nhdsGT (show (360 : Rat) < 420 by norm_num)] with h ⟨hlo, hhi⟩
    exact ⟨hlo.ne', by push_cast; linarith, by push_cast; linarith⟩
  have hwrapped : (components 360 s v).b = v * (1 - s * 1) := by
    rw [components_eq_blend s v ⟨by norm_num, le_rfl⟩]
    exact congrArg (fun g => v * (1 - s * g)) (show (hueDeficits (360 / 60)).b = 1 by decide +kernel)
  refine sector_ends_ne hs hv (.trans ?_ hwrapped)
  rw [hright]; norm_num

/-- At the other multiples of 60 outside `[0, 360]` blue is `v`; the sector on the left falls to `p`. -/
theorem not_continuousAt_blue_multiple {k : Int} (hs : s ≠ 0) (hv : v ≠ 0) (hk : 7 ≤ k ∨ k ≤ -1) :
    ¬ ContinuousAt (fun h => (components h s v).b) (60 * (k : Rat)) := by
  intro hcont
  have hne : ∀ h : Rat, 60 * ((k : Rat) - 1) < h → h ≤ 60 * k → h ≠ 360 := by
    rintro h hlo hhi rfl
    have hk7 : k < 7 := by exact_mod_cast (by linarith : (k : Rat) < 7)
    have hk6 : 6 ≤ k := by exact_mod_cast (by linarith : (6 : Rat) ≤ k)
    omega
  have hleft : (components (60 * k) s v).b = v * (1 - s * (60 * (k : Rat) / 60 - (k - 1 : Int))) := by
    refine blue_eq_of_continuousAt (l := 𝓝[<] (60 * (k : Rat))) hs (by omega) hcont nhdsWithin_le_nhds ?_
    filter_upwards [Ioo_mem_nhdsLT (show 60 * ((k : Rat) - 1) < 60 * k by linarith)] with h ⟨hlo, hhi⟩
    exact ⟨hne h hlo hhi.le, by push_cast; linarith, by push_cast; linarith⟩
  have hstart : (components (60 * k) s v).b = v * (1 - s * (60 * (k : Rat) / 60 - k)) :=
    components_b_default v hs (hne _ (by linarith) le_rfl) (by omega) le_rfl (by linarith)
  refine sector_ends_ne hs hv ?_
  have hends := hstart.symm.trans hleft
  push_cast at hends
  linear_combination hends

end Jumps

/-- Settles O12: on `[-60, 360]` by the continuous formula, and beyond by the two ends of the default sectors. -/
theorem componentsContinuousInTheHue : Obligations.ComponentsContinuousInTheHue := by
  refine ⟨fun s v => ?_, fun s v hs hv k hk => ?_⟩
  · obtain ⟨hr, hg, hb⟩ := continuous_hueDeficits
    have hblend : Set.EqOn (fun h => components h s v) (fun h => (hueDeficits (h / 60)).blend s v)
        (Set.Icc (-60) 360) := fun h hh => components_eq_blend s v hh
    exact ⟨(continuous_attenuated hr s v).continuousOn.congr fun h hh => congrArg Rgb.r (hblend hh),
      (continuous_attenuated hg s v).continuousOn.congr fun h hh => congrArg Rgb.g (hblend hh),
      (continuous_attenuated hb s v).continuousOn.congr fun h hh => congrArg Rgb.b (hblend hh)⟩
  · by_cases h6 : k = 6
    · subst h6
      rw [show 60 * ((6 : Int) : Rat) = 360 by norm_num]
      exact not_continuousAt_blue_threeSixty hs hv
    · exact not_continuousAt_blue_multiple hs hv (by omega)

end Sys2Proof.Machine

/-! ## The phases of the repository's host (41_host_environment.md rule R133) -/

namespace Sys2Proof.Machine

section HostTurn
variable {s : State} (hl : s.live = true) (hdrv : s.driver = .repository) (hnext : s.nextAgent = .host)
include hdrv hnext

/-- At the repository host's turn its phase says what it does. -/
theorem State.actionOf_repository : s.actionOf s.nextAgent = repoAction s.cfg s.repo := by
  simp [hnext, State.actionOf, State.hostAction, hdrv]

/-- A turn at which the repository's host requests an instruction that answers `u`. -/
theorem step_repoRequest {i : Instr} {u : State} (hact : repoAction s.cfg s.repo = .request (encode i))
    (hdec : decode .host (encode i) = .ok i) (hexec : exec i s.takeTurn = .next u) :
    step s = .next (s.takeTurn.settle .host i u) := by
  rw [step_request ((State.actionOf_repository hdrv hnext).trans hact), hnext, issue_ok hdec hexec]

include hl

theorem step_repoSample (hph : s.repo.phase = .sample) : step s = .next s.takeTurn.sampleStep :=
  step_sample hl (by simp [State.actionOf_repository hdrv hnext, repoAction, hph])

theorem step_repoConvert {w : Word32} (hph : s.repo.phase = .render) (hpix : s.repo.pixel < s.cfg.nLeds)
    (hc : convert s.cfg.rangePolicy (pixelHue s.cfg s.repo) s.repo.sat s.repo.val = .word w) :
    step s = .next { s.takeTurn with ret := w, repo := { s.repo with phase := .awaitPush, word := w } } := by
  have hact : repoAction s.cfg s.repo = .request (encode (.convert (pixelHue s.cfg s.repo) s.repo.sat s.repo.val)) := by
    simp [repoAction, hph, hpix]
  have hexec := execConvert_word (s := s.takeTurn) hl hc
  rw [step_repoRequest hdrv hnext hact (Laws.DecodeEncode.convert _ _ _) hexec,
    State.settle_done (t := s.takeTurn.returnWord w) .host rfl hl]
  simp [State.agentDone, State.returnWord, RepoHost.done, hdrv, hph]

theorem step_repoPush (hph : s.repo.phase = .awaitPush) (hroom : s.queue.length < s.cfg.qdepth) :
    step s = .next { s.takeTurn with
      queue := s.queue ++ [s.repo.word],
      repo := { s.repo with
        phase := .render, pixel := s.repo.pixel + 1, hueAcc := s.repo.hueAcc + 360 / s.cfg.nLeds } } := by
  have hact : repoAction s.cfg s.repo = .request (encode (.push s.repo.word)) := by simp [repoAction, hph]
  have hr : s.takeTurn.hasRoom = true := s.hasRoom_iff.mpr hroom
  have hexec := execPush_room (w := s.repo.word) (s := s.takeTurn) hl hr
  rw [step_repoRequest hdrv hnext hact (Laws.DecodeEncode.push _) hexec,
    State.settle_done (t := s.takeTurn.enqueue s.repo.word) .host (by simp [hr]) hl]
  simp [State.agentDone, State.enqueue, RepoHost.done, hueStep, hdrv, hph]

theorem step_repoPush_held (hph : s.repo.phase = .awaitPush) (hfull : ¬ s.queue.length < s.cfg.qdepth) :
    step s = .next s.takeTurn := by
  have hact : repoAction s.cfg s.repo = .request (encode (.push s.repo.word)) := by simp [repoAction, hph]
  have hr : s.takeTurn.hasRoom = false := Bool.eq_false_iff.mpr (mt s.hasRoom_iff.mp hfull)
  have hexec := execPush_held (w := s.repo.word) (s := s.takeTurn) hl hr
  rw [step_repoRequest hdrv hnext hact (Laws.DecodeEncode.push _) hexec, State.settle_held .host (by simp [hr])]

theorem step_repoEndFrame (hph : s.repo.phase = .render) (hpix : ¬ s.repo.pixel < s.cfg.nLeds) :
    step s = .next s.takeTurn.endFrameStep :=
  step_endFrame hl (by simp [State.actionOf_repository hdrv hnext, repoAction, hph, hpix])

theorem step_repoPace (hph : s.repo.phase = .pace) : step s = .next s.takeTurn.paceStep :=
  step_pace hl (by simp [State.actionOf_repository hdrv hnext, repoAction, hph])

end HostTurn

/-- Settles O43, a row of R133 at a time. -/
theorem repositoryHostPhases : Obligations.RepositoryHostPhases := by
  intro s hl hdrv hnext
  refine ⟨fun hph => ⟨_, step_repoSample hl hdrv hnext hph, rfl, rfl, rfl, rfl, rfl⟩,
    fun _ => step_repoConvert hl hdrv hnext, step_repoPush hl hdrv hnext, step_repoPush_held hl hdrv hnext,
    fun hph hpix => step_repoEndFrame hl hdrv hnext hph hpix.not_lt, step_repoPace hl hdrv hnext⟩

end Sys2Proof.Machine

/-! ## Sampling (41_host_environment.md rules R121, R122) -/

namespace Sys2Proof.Machine

section Sampling
variable {c : Cfg} (hc : c.admitted)
include hc

theorem calibrate_of_admitted (x : Nat) : calibrate c x = ((x : Rat) - 12) / 4083 := by
  obtain ⟨-, -, -, -, -, hoff, hdiv, -⟩ := hc
  simp [calibrate, hoff, hdiv]

theorem calibrateHue_of_admitted (x : Nat) : calibrateHue c x = 360 * ((x : Rat) - 12) / 4083 := by
  obtain ⟨-, -, -, -, -, hoff, hdiv, -⟩ := hc
  simp [calibrateHue, hoff, hdiv]

theorem intoRange_le (raw : Nat) : intoRange c raw ≤ 4095 := by
  obtain ⟨-, -, -, -, -, -, -, hmax, -⟩ := hc
  rw [intoRange, hmax]
  omega

/-- Given or free, a reading is in the reader's range. -/
theorem Reader.peek_le (r : Reader) : r.peek c ≤ 4095 := by
  unfold Reader.peek
  split
  · exact intoRange_le hc _
  · exact intoRange_le hc _

theorem calibrated_calibrate {x : Nat} (hx : x ≤ 4095) : Calibrated (calibrate c x) := by
  have hlo : (0 : Rat) ≤ x := x.cast_nonneg
  have hhi : (x : Rat) ≤ 4095 := by exact_mod_cast hx
  rw [calibrate_of_admitted hc]
  constructor <;> linarith

theorem calibrateHue_bounds {x : Nat} (hx : x ≤ 4095) : -4320 / 4083 ≤ calibrateHue c x ∧ calibrateHue c x ≤ 360 := by
  have hlo : (0 : Rat) ≤ x := x.cast_nonneg
  have hhi : (x : Rat) ≤ 4095 := by exact_mod_cast hx
  rw [calibrateHue_of_admitted hc]
  constructor <;> linarith

theorem calibrate_neg_iff (x : Nat) : calibrate c x < 0 ↔ x ≤ 11 := by
  rw [calibrate_of_admitted hc, div_lt_iff₀ (by norm_num), zero_mul, sub_neg, ← Nat.lt_succ_iff]
  exact Nat.cast_lt (n := 12)

/-- What Sample leaves in the host: the readings of channels 0 and 1 calibrated, and in sensor mode that of channel 2
(rules R121, R123). -/
theorem sampleRepo_of_admitted (r : Reader) (h : RepoHost) :
    sampleRepo c r h = { h with
      phase := .render, pixel := 0, hueAcc := 0, val := ((r.peek c : Rat) - 12) / 4083,
      sat := ((r.advance.peek c : Rat) - 12) / 4083,
      hue := if c.hueMode = .sensor then 360 * ((r.advance.advance.peek c : Rat) - 12) / 4083 else h.hue } := by
  rw [sampleRepo, calibrate_of_admitted hc, calibrate_of_admitted hc, sampleHue, calibrateHue_of_admitted hc]
  cases c.hueMode <;> rfl

end Sampling

/-- Settles O42: the Sample row with its readings, and the calibration over the reader's range. -/
theorem sampleCalibratesTheReadings : Obligations.SampleCalibratesTheReadings := by
  refine ⟨fun s hc hl hdrv hph hnext => ?_, fun c x hc hx => ?_, fun c r hc => r.peek_le hc⟩
  · obtain ⟨hf, hr⟩ := s.live_iff.mp hl
    exact ⟨_, _, _, _, Reader.peek_le hc _, Reader.peek_le hc _, Reader.peek_le hc _, step_repoSample hl hdrv hnext hph,
      sampleRepo_of_admitted hc s.adc s.repo, rfl, rfl, rfl, hf, hr⟩
  · obtain ⟨hlo, hhi⟩ := calibrated_calibrate hc hx
    obtain ⟨hlo', hhi'⟩ := calibrateHue_bounds hc hx
    refine ⟨hlo, hhi, hlo', hhi', calibrate_neg_iff hc x, ?_, ?_⟩
    · rintro rfl
      rw [calibrate_of_admitted hc]; norm_num
    · rintro rfl
      rw [calibrate_of_admitted hc, calibrateHue_of_admitted hc]; norm_num

end Sys2Proof.Machine

/-! ## The hue accumulator (41_host_environment.md rules R124, R125) -/

namespace Sys2Proof.Machine

/-- No instruction writes the repository host's state: only its own steps do. -/
theorem exec_repo {i : Instr} {s t : State} (e : exec i s = .next t) : t.repo = s.repo := by
  cases i with
  | convert h sat v => obtain ⟨-, ⟨w, -, rfl⟩ | ⟨f, -, rfl⟩⟩ := execConvert_next e <;> rfl
  | push w => obtain ⟨-, ⟨-, rfl⟩ | ⟨-, rfl⟩⟩ := execPush_next e <;> rfl
  | emit => obtain ⟨-, ⟨-, rfl⟩ | ⟨w, rest, -, rfl⟩⟩ := execEmit_next e <;> rfl
  | reserved => obtain ⟨-, rfl⟩ := execReserved_next e; rfl

theorem State.agentDone_repo (s : State) (a : Agent) :
    (s.agentDone a).repo = s.repo ∨ (s.agentDone a).repo = s.repo.done s.cfg s.ret := by
  unfold State.agentDone
  split
  · exact .inr rfl
  · exact .inl rfl
  · exact .inl rfl

theorem State.settle_repo (s t : State) (a : Agent) (i : Instr) :
    (s.settle a i t).repo = t.repo ∨ (s.settle a i t).repo = t.repo.done t.cfg t.ret := by
  unfold State.settle
  split
  · exact .inl rfl
  · exact t.agentDone_repo a

/-- What a step may do to the repository's host: nothing, or one of its own steps. -/
theorem step_repo {s t : State} (e : step s = .next t) :
    t.repo = s.repo ∨ (∃ ret, t.repo = s.repo.done s.cfg ret) ∨ t.repo = sampleRepo s.cfg s.adc s.repo ∨
      ∃ p, t.repo = { s.repo with phase := p } := by
  obtain ⟨-, ⟨r, -, hr⟩ | ⟨-, rfl⟩ | ⟨-, rfl⟩ | ⟨-, rfl⟩ | ⟨-, rfl⟩⟩ := step_next e
  · obtain ⟨-, ⟨-, rfl⟩ | ⟨i, u, -, hu, rfl⟩⟩ := issue_next hr
    · exact .inl rfl
    · have hrepo : u.repo = s.takeTurn.repo := exec_repo hu
      have hcfg : u.cfg = s.takeTurn.cfg := (exec_movesOneWordAtMost hu).1
      rcases s.takeTurn.settle_repo u s.nextAgent i with h | h
      · exact .inl (h.trans hrepo)
      · exact .inr (.inl ⟨u.ret, h.trans (by rw [hrepo, hcfg]; rfl)⟩)
  · exact .inr (.inr (.inl rfl))
  · exact .inr (.inr (.inr ⟨_, rfl⟩))
  · exact .inr (.inr (.inr ⟨_, rfl⟩))
  · exact .inl rfl

/-- `k * 360 / N` at pixel `k` (rule R125). -/
def RepoHost.HueAccAtPixel (c : Cfg) (h : RepoHost) : Prop := h.hueAcc = h.pixel * (360 / c.nLeds)

/-- A completed PUSH grows index and accumulator together; a completed CONVERT grows neither. -/
theorem RepoHost.HueAccAtPixel.done {c : Cfg} {h : RepoHost} (hh : h.HueAccAtPixel c) (ret : Word32) :
    (h.done c ret).HueAccAtPixel c := by
  unfold RepoHost.done
  split
  · exact hh
  · unfold RepoHost.HueAccAtPixel at hh ⊢
    rw [hh, hueStep, Nat.cast_succ, add_one_mul]
  · exact hh
  · exact hh

theorem hueAccAtPixel_sampleRepo (c : Cfg) (r : Reader) (h : RepoHost) : (sampleRepo c r h).HueAccAtPixel c := by
  simp [RepoHost.HueAccAtPixel, sampleRepo]

theorem step_hueAccAtPixel {s t : State} (h : s.repo.HueAccAtPixel s.cfg) (e : step s = .next t) :
    t.repo.HueAccAtPixel t.cfg := by
  rw [(step_movesOneWordAtMost e).1]
  obtain ht | ⟨ret, ht⟩ | ht | ⟨p, ht⟩ := step_repo e
  · rw [ht]; exact h
  · rw [ht]; exact h.done ret
  · rw [ht]; exact hueAccAtPixel_sampleRepo ..
  · rw [ht]; exact h

theorem pixelHue_of_sweep {c : Cfg} (r : RepoHost) (hm : c.hueMode = .sweep) : pixelHue c r = r.hueAcc := by
  rw [pixelHue, hm]

theorem pixelHue_of_sensor {c : Cfg} (r : RepoHost) (hm : c.hueMode = .sensor) : pixelHue c r = r.hue := by
  rw [pixelHue, hm]

/-- With 64 pixels the sweep advances by 45/8 degrees. -/
theorem State.RepositoryRun.pixelHue_sweep {s : State} (h : s.RepositoryRun) (hm : s.cfg.hueMode = .sweep) :
    pixelHue s.cfg s.repo = s.repo.pixel * (45 / 8) := by
  obtain ⟨-, -, -, -, hleds, -⟩ := h.admitted
  rw [pixelHue_of_sweep _ hm, h.hueAcc, hleds]
  norm_num

/-- Settles O44: the accumulator by what a step may do to the host, the hues by its value at the pixel. -/
theorem hueAccumulatorMatchesThePixel : Obligations.HueAccumulatorMatchesThePixel := by
  refine ⟨fun s t h e => step_hueAccAtPixel h e, fun s h hpix => ⟨fun hm => ?_, pixelHue_of_sensor s.repo⟩⟩
  have hlo : (0 : Rat) ≤ s.repo.pixel := s.repo.pixel.cast_nonneg
  have hhi : (s.repo.pixel : Rat) < 64 := by exact_mod_cast hpix
  rw [h.pixelHue_sweep hm]
  exact ⟨rfl, by linarith, by linarith⟩

end Sys2Proof.Machine

/-! ## The repository's host never faults (41_host_environment.md rule R132) -/

namespace Sys2Proof.Machine

/-- On the calibrated domain CONVERT gives a word, whatever the hue and the policy (rule R92). -/
theorem convert_word_of_calibrated (policy : RangePolicy) (h : Rat) {s v : Rat} (hs : Calibrated s)
    (hv : Calibrated v) : ∃ w, convert policy h s v = .word w := by
  obtain ⟨hs0, hs1⟩ := hs
  obtain ⟨hv0, hv1⟩ := hv
  have hin : ∀ x ∈ (components h s v).lanes, inWindow x := fun x hx =>
    have ⟨hlo, hhi⟩ := (isInterp_components h s v x hx).calibrated hs0 hs1 hv0 hv1
    inWindow_of_calibrated hlo hhi
  exact ⟨_, convert_inside (hin _ (by simp)) (hin _ (by simp)) (hin _ (by simp))⟩

/-- A serializer with no record given goes on as it was. -/
theorem State.agentDone_serializer_self {s : State} (hser : s.serRecords = []) : s.agentDone .serializer = s := by
  rw [State.agentDone, hser, List.tail_nil, ← hser]

section SerializerTurn
variable {s : State} (hl : s.live = true) (hser : s.serRecords = []) (hnext : s.nextAgent = .serializer)
include hser hnext

/-- A turn at which the serializer issues an EMIT of its own. -/
theorem step_ownEmit {u : State} (hexec : exec .emit s.takeTurn = .next u) :
    step s = .next (s.takeTurn.settle .serializer .emit u) := by
  have hact : s.actionOf s.nextAgent = .request (encode .emit) := by
    simp [hnext, State.actionOf, State.serializerAction, hser]
  rw [step_request hact, hnext, issue_ok (i := .emit) rfl hexec]

include hl

theorem step_ownEmit_nil (hq : s.queue = []) : step s = .next s.takeTurn := by
  rw [step_ownEmit hser hnext (execEmit_nil (s := s.takeTurn) hl hq),
    State.settle_held .serializer (by simp [s.empty_iff, hq])]

theorem step_ownEmit_cons {w : Word32} {rest : List Word32} (hq : s.queue = w :: rest) :
    step s = .next (s.takeTurn.transmit w rest) := by
  rw [step_ownEmit hser hnext (execEmit_cons (s := s.takeTurn) hl hq),
    State.settle_done (t := s.takeTurn.transmit w rest) .serializer (by simp [State.empty, hq]) hl,
    State.agentDone_serializer_self (s := s.takeTurn.transmit w rest) hser]

end SerializerTurn

namespace State.RepositoryRun
variable {s : State} (h : s.RepositoryRun)
include h

theorem takeTurn : s.takeTurn.RepositoryRun := { h with }

theorem transmit {w : Word32} {rest : List Word32} (hq : s.queue = w :: rest) : (s.transmit w rest).RepositoryRun :=
  { h with bounded := Nat.le_of_succ_le (by simpa [State.QueueBounded, hq] using h.bounded) }

theorem sampleStep : s.sampleStep.RepositoryRun :=
  { h with
    sat := calibrated_calibrate h.admitted (Reader.peek_le h.admitted _)
    val := calibrated_calibrate h.admitted (Reader.peek_le h.admitted _)
    pixel := Nat.zero_le _
    awaiting := nofun
    hueAcc := hueAccAtPixel_sampleRepo .. }

theorem endFrameStep : s.endFrameStep.RepositoryRun := { h with awaiting := nofun }

theorem paceStep : s.paceStep.RepositoryRun := { h with awaiting := nofun }

/-- The host after the CONVERT of a pixel. -/
theorem converted (hpix : s.repo.pixel < s.cfg.nLeds) (w : Word32) :
    State.RepositoryRun { s with ret := w, repo := { s.repo with phase := .awaitPush, word := w } } :=
  { h with awaiting := fun _ => hpix }

/-- The host after the PUSH of a pixel's word. -/
theorem pushed (hph : s.repo.phase = .awaitPush) (hroom : s.queue.length < s.cfg.qdepth) (w : Word32) :
    State.RepositoryRun { s with
      queue := s.queue ++ [w],
      repo := { s.repo with
        phase := .render, pixel := s.repo.pixel + 1, hueAcc := s.repo.hueAcc + 360 / s.cfg.nLeds } } :=
  { h with
    bounded := by simpa [State.QueueBounded] using hroom
    pixel := h.awaiting hph
    awaiting := nofun
    hueAcc := by simp only [h.hueAcc, Nat.cast_succ, add_one_mul] }

/-- The serializer's turn: its EMIT takes the oldest word or finds none. -/
theorem exists_step_serializer (hnext : s.nextAgent = .serializer) : ∃ t, step s = .next t ∧ t.RepositoryRun := by
  cases hq : s.queue with
  | nil => exact ⟨_, step_ownEmit_nil h.live h.serializer hnext hq, h.takeTurn⟩
  | cons w rest => exact ⟨_, step_ownEmit_cons h.live h.serializer hnext hq, h.takeTurn.transmit hq⟩

/-- The host's turn, phase by phase: its CONVERTs are on the calibrated domain, so they do not fault. -/
theorem exists_step_host (hnext : s.nextAgent = .host) : ∃ t, step s = .next t ∧ t.RepositoryRun := by
  have hl := h.live
  have hdrv := h.driver
  cases hph : s.repo.phase with
  | sample => exact ⟨_, step_repoSample hl hdrv hnext hph, h.takeTurn.sampleStep⟩
  | render =>
    by_cases hpix : s.repo.pixel < s.cfg.nLeds
    · obtain ⟨w, hw⟩ := convert_word_of_calibrated s.cfg.rangePolicy (pixelHue s.cfg s.repo) h.sat h.val
      exact ⟨_, step_repoConvert hl hdrv hnext hph hpix hw, h.takeTurn.converted hpix w⟩
    · exact ⟨_, step_repoEndFrame hl hdrv hnext hph hpix, h.takeTurn.endFrameStep⟩
  | awaitPush =>
    by_cases hroom : s.queue.length < s.cfg.qdepth
    · exact ⟨_, step_repoPush hl hdrv hnext hph hroom, h.takeTurn.pushed hph hroom _⟩
    · exact ⟨_, step_repoPush_held hl hdrv hnext hph hroom, h.takeTurn⟩
  | pace => exact ⟨_, step_repoPace hl hdrv hnext hph, h.takeTurn.paceStep⟩

theorem exists_step : ∃ t, step s = .next t ∧ t.RepositoryRun := by
  cases hnext : s.nextAgent with
  | host => exact h.exists_step_host hnext
  | serializer => exact h.exists_step_serializer hnext

end State.RepositoryRun

/-- Where every step from a state with a property answers a state with it, so does every run. -/
theorem run_progress {P : State → Prop} (hstep : ∀ s, P s → ∃ t, step s = .next t ∧ P t) (n : Nat) :
    ∀ s, P s → ∃ t, core.run n s = .next t ∧ P t := by
  induction n with
  | zero => exact fun s hs => ⟨s, rfl, hs⟩
  | succ n ih =>
    intro s hs
    obtain ⟨u, hu, hPu⟩ := hstep s hs
    obtain ⟨t, ht, hPt⟩ := ih u hPu
    exact ⟨t, run_cons hu ht, hPt⟩

/-- Settles O45: the invariant holds after every agent's turn, and it holds no mark. -/
theorem repositoryHostNeverFaults : Obligations.RepositoryHostNeverFaults := by
  refine ⟨fun s h => h.exists_step, fun n s h => ?_⟩
  obtain ⟨t, ht, hrun⟩ := run_progress (fun _ hs => hs.exists_step) n s h
  exact ⟨t, ht, t.live_iff.mp hrun.live⟩

end Sys2Proof.Machine

/-! ## PUSH (42_pixel_stream.md rules R141 to R143) -/

namespace Sys2Proof.Machine

theorem State.pushEnabled_iff (s : State) :
    s.pushEnabled = true ↔ s.queue.length < s.cfg.qdepth ∧ s.fault = none ∧ s.refused = false := by
  rw [State.pushEnabled, Bool.and_eq_true, s.hasRoom_iff, s.live_iff]

/-- The EMIT of a full queue makes room. -/
theorem State.transmit_hasRoom {s : State} {w : Word32} {rest : List Word32} (hq : s.queue = w :: rest)
    (hfull : s.queue.length = s.cfg.qdepth) : (s.transmit w rest).hasRoom = true := by
  rw [State.hasRoom_iff, State.transmit_queue, State.transmit_cfg, ← hfull, hq]
  exact Nat.lt_succ_self rest.length

/-- Settles O24: kind and issuer by the kind table, PUSH by its two outcomes, and the hold by the EMIT that makes
room. -/
theorem pushAppendsOrHolds : Obligations.PushAppendsOrHolds := by
  intro s w
  refine ⟨⟨rfl, Laws.DecodeEncode.push w, ?wrongIssuer⟩, s.pushEnabled_iff, ?room, ?held, ?lifted⟩
  case wrongIssuer => exact (decode_kind01 _ rfl).trans (onlyFrom_of_ne (by decide) _)
  case room => exact fun hf hr hroom => execPush_room (s.live_iff.mpr ⟨hf, hr⟩) (s.hasRoom_iff.mpr hroom)
  case held =>
    exact fun hf hr hfull => execPush_held (s.live_iff.mpr ⟨hf, hr⟩) (Bool.eq_false_iff.mpr (mt s.hasRoom_iff.mp hfull))
  case lifted =>
    intro hf hr hfull hdepth
    have hl : s.live = true := s.live_iff.mpr ⟨hf, hr⟩
    obtain ⟨w', rest, hq⟩ := List.exists_cons_of_length_pos (hfull ▸ hdepth)
    exact ⟨s.transmit w' rest, execEmit_cons hl hq,
      execPush_room (s := s.transmit w' rest) hl (State.transmit_hasRoom hq hfull)⟩

end Sys2Proof.Machine

/-! ## EMIT (42_pixel_stream.md rules R144, R145) -/

namespace Sys2Proof.Machine

theorem State.emitEnabled_iff (s : State) :
    s.emitEnabled = true ↔ 0 < s.queue.length ∧ s.fault = none ∧ s.refused = false := by
  rw [State.emitEnabled, Bool.and_eq_true, s.live_iff, Bool.not_eq_true', Bool.eq_false_iff, Ne, s.empty_iff,
    List.length_pos_iff]

/-- Settles O25: kind and issuer by the kind table, EMIT by whether the queue holds a word. -/
theorem emitTransmitsTheOldestWord : Obligations.EmitTransmitsTheOldestWord := by
  intro s
  refine ⟨⟨rfl, Laws.DecodeEncode.emit, ?wrongIssuer⟩, s.emitEnabled_iff, ?word, ?empty⟩
  case wrongIssuer => exact (decode_kind10 _ rfl).trans (onlyFrom_of_ne (by decide) _)
  case word => exact fun w rest hf hr hq => execEmit_cons (s.live_iff.mpr ⟨hf, hr⟩) hq
  case empty => exact fun hf hr hq => execEmit_nil (s.live_iff.mpr ⟨hf, hr⟩) hq

end Sys2Proof.Machine

/-! ## Conservation of words (42_pixel_stream.md rule R148) -/

namespace Sys2Proof.Machine

/-- What a step from `s` accepts goes behind the queue and what it takes comes off its head and onto the line. -/
def ConservesWords (s t : State) : Prop :=
  s.queue ++ s.accepted = s.taken ++ t.queue ∧ t.out = s.out ++ s.taken.map line

theorem conservesWords_of_eq {s t : State} (ha : s.accepted = []) (hk : s.taken = []) (hq : t.queue = s.queue)
    (ho : t.out = s.out) : ConservesWords s t := by
  simp [ConservesWords, ha, hk, hq, ho]

/-- A step that issues neither a PUSH nor an EMIT conserves the words when it leaves queue and line. -/
theorem conservesWords_of_nextInstr {s t : State} (hpush : ∀ w, s.nextInstr ≠ some (.push w))
    (hemit : s.nextInstr ≠ some .emit) (hq : t.queue = s.queue) (ho : t.out = s.out) : ConservesWords s t :=
  conservesWords_of_eq (State.accepted_of_not_push hpush) (State.taken_of_not_emit hemit) hq ho

@[simp] theorem conservesWords_settle (s u t : State) (a : Agent) (i : Instr) :
    ConservesWords s (u.settle a i t) ↔ ConservesWords s t := by
  simp [ConservesWords]

theorem conservesWords_push {s t : State} {w : Word32} (hi : s.nextInstr = some (.push w))
    (e : execPush w s.takeTurn = .next t) : ConservesWords s t := by
  have hk : s.taken = [] := State.taken_of_not_emit (by simp [hi])
  obtain ⟨hl, ⟨hr, rfl⟩ | ⟨hr, rfl⟩⟩ := execPush_next e
  · have ha : s.accepted = [w] := by
      rw [State.takeTurn_live] at hl; rw [State.takeTurn_hasRoom] at hr
      simp [State.accepted_of_push hi, State.pushEnabled, hl, hr]
    simp [ConservesWords, ha, hk]
  · have ha : s.accepted = [] := by
      rw [State.takeTurn_hasRoom] at hr
      simp [State.accepted_of_push hi, State.pushEnabled, hr]
    exact conservesWords_of_eq ha hk rfl rfl

theorem conservesWords_emit {s t : State} (hi : s.nextInstr = some .emit) (e : execEmit s.takeTurn = .next t) :
    ConservesWords s t := by
  have ha : s.accepted = [] := State.accepted_of_not_push (by simp [hi])
  obtain ⟨hl, ⟨hq, rfl⟩ | ⟨w, rest, hq, rfl⟩⟩ := execEmit_next e
  · have hk : s.taken = [] := by
      rw [State.takeTurn_queue] at hq
      simp [State.taken_of_emit hi, hq]
    exact conservesWords_of_eq ha hk rfl rfl
  · have hk : s.taken = [w] := by
      rw [State.takeTurn_live] at hl; rw [State.takeTurn_queue] at hq
      simp [State.taken_of_emit hi, State.emitEnabled, State.empty, hl, hq]
    rw [State.takeTurn_queue] at hq
    simp [ConservesWords, ha, hk, hq]

theorem step_conservesWords {s t : State} (e : step s = .next t) : ConservesWords s t := by
  obtain ⟨-, ⟨r, hact, hr⟩ | ⟨hact, rfl⟩ | ⟨hact, rfl⟩ | ⟨hact, rfl⟩ | ⟨hact, rfl⟩⟩ := step_next e
  case inl =>
    obtain ⟨-, ⟨⟨why, hd⟩, rfl⟩ | ⟨i, u, hd, hu, rfl⟩⟩ := issue_next hr
    · have hi : s.nextInstr = none := State.nextInstr_of_refused hact hd
      exact conservesWords_of_nextInstr (by simp [hi]) (by simp [hi]) rfl rfl
    · have hi : s.nextInstr = some i := State.nextInstr_of_request hact hd
      rw [conservesWords_settle]
      cases i with
      | convert h sat v =>
        obtain ⟨-, ⟨w, -, rfl⟩ | ⟨f, -, rfl⟩⟩ := execConvert_next hu
        · exact conservesWords_of_nextInstr (by simp [hi]) (by simp [hi]) rfl rfl
        · exact conservesWords_of_nextInstr (by simp [hi]) (by simp [hi]) rfl rfl
      | push w => exact conservesWords_push hi hu
      | emit => exact conservesWords_emit hi hu
      | reserved =>
        obtain ⟨-, rfl⟩ := execReserved_next hu
        exact conservesWords_of_nextInstr (by simp [hi]) (by simp [hi]) rfl rfl
  all_goals
    have hi : s.nextInstr = none := by simp [State.nextInstr, hact]
    exact conservesWords_of_nextInstr (by simp [hi]) (by simp [hi]) rfl rfl

/-- The words queued at the start of a run and those it accepts are those it takes and those queued at its end. -/
theorem run_conserves (n : Nat) : ∀ s t : State, core.run n s = .next t →
    s.queue ++ acceptedIn n s = takenIn n s ++ t.queue ∧ t.out = s.out ++ (takenIn n s).map line := by
  induction n with
  | zero => intro s t h; cases h; simp [acceptedIn, takenIn]
  | succ n ih =>
    intro s t h
    obtain ⟨u, hu, hr⟩ := run_succ_next h
    obtain ⟨hqueue, hout⟩ := step_conservesWords hu
    obtain ⟨ihqueue, ihout⟩ := ih u t hr
    rw [acceptedIn_succ hu, takenIn_succ hu]
    constructor
    · rw [← List.append_assoc, hqueue, List.append_assoc, ihqueue, List.append_assoc]
    · rw [ihout, hout, List.map_append, List.append_assoc]

/-- The line of a run is what it held at the start, then an initial part of the words queued and accepted. -/
theorem run_out_isPrefix {n : Nat} {s t : State} (h : core.run n s = .next t) :
    t.out <+: s.out ++ (s.queue ++ acceptedIn n s).map line := by
  obtain ⟨hqueue, hout⟩ := run_conserves n s t h
  rw [hout, hqueue, List.map_append, ← List.append_assoc]
  exact List.prefix_append _ _

/-- Settles O37, by induction on the run, a step conserving the words. -/
theorem noWordLostDuplicatedOrReordered : Obligations.NoWordLostDuplicatedOrReordered := by
  intro n s t h
  obtain ⟨hqueue, hout⟩ := run_conserves n s t h
  exact ⟨hqueue, hout, fun hq ho => by simpa [hq, ho] using run_out_isPrefix h⟩

end Sys2Proof.Machine

/-! ## The serializer is independent of the host (42_pixel_stream.md rule R147) -/

namespace Sys2Proof

/-- The serializer's records name EMIT, the reserved kind, or nothing (rule R68). -/
theorem decode_serializer_ok {r : Record} {i : Instr} (hd : decode .serializer r = .ok i) :
    i = .emit ∨ i = .reserved := by
  have hrefused : ∀ d, onlyFrom .host .serializer d = .error .wrongIssuer := onlyFrom_of_ne (by decide)
  unfold decode at hd
  split at hd
  · simp [hrefused] at hd
  · simp [hrefused] at hd
  · rw [onlyFrom_self] at hd; cases hd; exact .inl rfl
  · cases hd; exact .inr rfl

end Sys2Proof

namespace Sys2Proof.Machine

/-- The block, the serializer and the schedule of `s` with the host's own fields of `h`. -/
def State.withHostOf (s h : State) : State :=
  { s with driver := h.driver, repo := h.repo, prog := h.prog, adc := h.adc, ret := h.ret }

section WithHostOf
variable {s t : State} (h : State)

/-- The serializer's instructions neither read nor write a field of the host. -/
theorem exec_withHostOf {i : Instr} (hi : i = .emit ∨ i = .reserved) (e : exec i s = .next t) :
    exec i (s.withHostOf h) = .next (t.withHostOf h) := by
  have hl : s.live = true := exec_live e
  rcases hi with rfl | rfl
  · obtain ⟨-, ⟨hq, rfl⟩ | ⟨w, rest, hq, rfl⟩⟩ := execEmit_next e
    · exact execEmit_nil (s := t.withHostOf h) hl hq
    · exact execEmit_cons (s := s.withHostOf h) hl hq
  · obtain ⟨-, rfl⟩ := execReserved_next e
    exact whenLive_of_live (s := s.withHostOf h) hl _

theorem settle_withHostOf {i : Instr} (hi : i = .emit ∨ i = .reserved) :
    (s.withHostOf h).settle .serializer i (t.withHostOf h) = (s.settle .serializer i t).withHostOf h := by
  have hh : (s.withHostOf h).holds i = s.holds i := by rcases hi with rfl | rfl <;> rfl
  have hl : (t.withHostOf h).live = t.live := rfl
  unfold State.settle
  rw [hh, hl]
  split <;> rfl

theorem issue_withHostOf {r : Record} (e : issue .serializer r s = .next t) :
    issue .serializer r (s.withHostOf h) = .next (t.withHostOf h) := by
  obtain ⟨hl, ⟨⟨why, hd⟩, rfl⟩ | ⟨i, u, hd, hu, rfl⟩⟩ := issue_next e
  · exact issue_refused (s := s.withHostOf h) hl hd
  · have hi : i = .emit ∨ i = .reserved := decode_serializer_ok hd
    rw [issue_ok hd (exec_withHostOf h hi hu), settle_withHostOf h hi]

/-- At its turn the serializer issues a record. -/
theorem step_serializer (hnext : s.nextAgent = .serializer) :
    ∃ r, s.serializerAction = .request r ∧ step s = issue .serializer r s.takeTurn := by
  obtain ⟨r, hr⟩ : ∃ r, s.serializerAction = .request r := by
    unfold State.serializerAction
    split
    · exact ⟨_, rfl⟩
    · exact ⟨_, rfl⟩
  have hact : s.actionOf s.nextAgent = .request r := by rw [hnext]; exact hr
  exact ⟨r, hr, by rw [step_request hact, hnext]⟩

theorem step_withHostOf (hnext : s.nextAgent = .serializer) (e : step s = .next t) :
    step (s.withHostOf h) = .next (t.withHostOf h) := by
  obtain ⟨r, hr, hs⟩ := step_serializer hnext
  obtain ⟨r', hr', hs'⟩ := step_serializer (s := s.withHostOf h) hnext
  obtain rfl : r = r' := Action.request.inj (hr.symm.trans hr')
  rw [hs']
  exact issue_withHostOf h (hs.symm.trans e)

end WithHostOf

/-- Settles O40: the host's fields given are those of a state. -/
theorem serializerIgnoresTheHost : Obligations.SerializerIgnoresTheHost :=
  fun s _ d repo prog adc ret =>
    step_withHostOf { s with driver := d, repo := repo, prog := prog, adc := adc, ret := ret }

end Sys2Proof.Machine

/-! ## The host alone (42_pixel_stream.md rule R149)

What the host does depends on the queue only by the turns at which its PUSH is held, and those leave it as it is. So the
words it pushes are those it would push with the block to itself, whatever the depth and the schedule. -/

namespace Sys2Proof

/-- No record of the host's names EMIT (rule R68). -/
theorem decode_host_ne_emit (r : Record) : decode .host r ≠ .ok .emit := by
  unfold decode
  split
  · rw [onlyFrom_self]; unfold decodeConvert; split <;> simp
  · simp
  · rw [onlyFrom_of_ne (by decide)]; simp
  · simp

end Sys2Proof

namespace Sys2Proof.Machine

/-- The host of `s` with the block to itself: nothing queued or marked, a depth at which no PUSH is held, no other
agent. -/
def State.hostView (s : State) : State :=
  { s with
    cfg := { s.cfg with qdepth := 1 }, queue := [], out := [], fault := none, refused := false, serRecords := [],
    sched := { turns := [], rounds := 0 } }

/-- A turn of the host, whoever the schedule names. -/
def hostTurn (s : State) : Result := perform .host s.hostAction s

/-- The words the host pushes in `n` turns, when it has the block to itself at each. -/
def hostWords : Nat → State → List Word32
  | 0, _ => []
  | n + 1, s =>
    match hostTurn s.hostView with
    | .next t => s.hostView.accepted ++ hostWords n t
    | .fault _ => []
    | .refused _ => []

/-- From `s` to `t` the host has stood still and no word was accepted, or it has taken the turn it takes alone, with
the same words accepted. -/
def HostFollows (s t : State) : Prop :=
  (t.hostView = s.hostView ∧ s.accepted = []) ∨
    ∃ v, hostTurn s.hostView = .next v ∧ v.hostView = t.hostView ∧ s.accepted = s.hostView.accepted

section HostView
variable (s : State)

@[simp] theorem State.hostView_live : s.hostView.live = true := rfl

@[simp] theorem State.hostView_hasRoom : s.hostView.hasRoom = true := rfl

@[simp] theorem State.hostView_hostView : s.hostView.hostView = s.hostView := rfl

@[simp] theorem State.takeTurn_hostView : s.takeTurn.hostView = s.hostView := rfl

@[simp] theorem State.hostView_hostAction : s.hostView.hostAction = s.hostAction := rfl

theorem State.agentDone_hostView : (s.agentDone .host).hostView = (s.hostView.agentDone .host).hostView := by
  have hd : s.hostView.driver = s.driver := rfl
  unfold State.agentDone
  rw [hd]
  cases s.driver with
  | repository => rfl
  | records => rfl

end HostView

/-- Alone, the host is never held. -/
theorem State.hostView_holds (s : State) {i : Instr} (hi : i ≠ .emit) : s.hostView.holds i = false := by
  cases i with
  | convert h sat v => rfl
  | push w => rfl
  | emit => exact absurd rfl hi
  | reserved => rfl

section HostTurn
variable {s t : State}

/-- An instruction that is not held does to the host, and to the marks, what it does when the host is alone. -/
theorem exec_hostView {i : Instr} (hi : i ≠ .emit) (hh : s.holds i = false) (e : exec i s = .next t) :
    ∃ v, exec i s.hostView = .next v ∧ v.hostView = t.hostView ∧ v.live = t.live := by
  have hl : s.live = true := exec_live e
  cases i with
  | convert h sat v =>
    obtain ⟨-, ⟨w, hw, rfl⟩ | ⟨f, hf, rfl⟩⟩ := execConvert_next e
    · exact ⟨s.hostView.returnWord w, execConvert_word s.hostView_live hw, rfl, hl.symm⟩
    · exact ⟨s.hostView.raiseFault f, execConvert_range s.hostView_live hf, rfl, rfl⟩
  | push w =>
    obtain ⟨-, ⟨hr, rfl⟩ | ⟨hr, rfl⟩⟩ := execPush_next e
    · exact ⟨s.hostView.enqueue w, execPush_room s.hostView_live s.hostView_hasRoom, rfl, hl.symm⟩
    · simp [hr] at hh
  | emit => exact absurd rfl hi
  | reserved =>
    obtain ⟨-, rfl⟩ := execReserved_next e
    exact ⟨s.hostView.refuse, whenLive_of_live s.hostView_live _, rfl, by simp⟩

theorem settle_hostView {u v : State} {i : Instr} (hi : i ≠ .emit) (hh : s.holds i = false)
    (hv : v.hostView = u.hostView) (hl : v.live = u.live) :
    (s.hostView.settle .host i v).hostView = (s.settle .host i u).hostView := by
  cases hu : u.live with
  | true =>
    rw [State.settle_done .host (s.hostView_holds hi) (hl.trans hu), State.settle_done .host hh hu,
      v.agentDone_hostView, u.agentDone_hostView, hv]
  | false => rw [State.settle_dead .host i (hl.trans hu), State.settle_dead .host i hu, hv]

/-- A record of the host is held and leaves the state, or does to the host what it does when the host is alone. -/
theorem issue_hostView {r : Record} (e : issue .host r s = .next t) :
    (t = s ∧ ∃ i, decode .host r = .ok i ∧ s.holds i = true) ∨
      (∀ i, decode .host r = .ok i → s.holds i = false) ∧
        ∃ v, issue .host r s.hostView = .next v ∧ v.hostView = t.hostView := by
  obtain ⟨-, ⟨⟨why, hd⟩, rfl⟩ | ⟨i, u, hd, hu, rfl⟩⟩ := issue_next e
  · exact .inr ⟨fun i hi => by simp [hd] at hi, _, issue_refused s.hostView_live hd, rfl⟩
  · have hi : i ≠ .emit := by rintro rfl; exact decode_host_ne_emit r hd
    cases hh : s.holds i with
    | true =>
      obtain rfl : u = s := exec_eq_self_of_holds hu hh
      exact .inl ⟨State.settle_held .host hh, i, hd, hh⟩
    | false =>
      obtain ⟨v, hv, hvu, hlive⟩ := exec_hostView hi hh hu
      refine .inr ⟨fun j hj => ?_, _, issue_ok hd hv, settle_hostView hi hh hvu hlive⟩
      obtain rfl : i = j := Except.ok.inj (hd.symm.trans hj)
      exact hh

/-- Nothing is accepted while the host is held. -/
theorem accepted_of_holds {i : Instr} (hi : s.nextInstr = some i) (hh : s.holds i = true) : s.accepted = [] := by
  cases i with
  | push w =>
    have hr : s.hasRoom = false := by simpa using hh
    simp [State.accepted_of_push hi, State.pushEnabled, hr]
  | convert h sat v => exact State.accepted_of_not_push (by simp [hi])
  | emit => exact State.accepted_of_not_push (by simp [hi])
  | reserved => exact State.accepted_of_not_push (by simp [hi])

/-- The instruction a requested record is said to name is the one it decodes to. -/
theorem decode_of_nextInstr {r : Record} {i : Instr} (hact : s.actionOf s.nextAgent = .request r)
    (hi : s.nextInstr = some i) : decode s.nextAgent r = .ok i := by
  cases hd : decode s.nextAgent r with
  | error why => simp [State.nextInstr_of_refused hact hd] at hi
  | ok j => rw [State.nextInstr_of_request hact hd] at hi; rw [Option.some.inj hi]

variable (hnext : s.nextAgent = .host)
include hnext

theorem nextInstr_hostView : s.hostView.nextInstr = s.nextInstr := by
  have hnext' : s.hostView.nextAgent = .host := rfl
  simp only [State.nextInstr, hnext, hnext', State.actionOf, State.hostView_hostAction]

theorem hostTurn_hostView {act : Action} (hact : s.actionOf s.nextAgent = act) :
    hostTurn s.hostView = perform .host act s.hostView := by
  rw [hnext] at hact
  rw [hostTurn, s.hostView_hostAction, ← hact]
  rfl

/-- A host that is not held has its word accepted as it has when it is alone. -/
theorem accepted_hostView (hl : s.live = true) (hh : ∀ i, s.nextInstr = some i → s.holds i = false) :
    s.accepted = s.hostView.accepted := by
  by_cases hp : ∃ w, s.nextInstr = some (.push w)
  · obtain ⟨w, hw⟩ := hp
    have hr : s.hasRoom = true := by simpa using hh _ hw
    have hw' : s.hostView.nextInstr = some (.push w) := (nextInstr_hostView hnext).trans hw
    simp [State.accepted_of_push hw, State.accepted_of_push hw', State.pushEnabled, hl, hr]
  · have hp' : ∀ w, s.nextInstr ≠ some (.push w) := not_exists.mp hp
    rw [State.accepted_of_not_push hp', State.accepted_of_not_push (by rwa [nextInstr_hostView hnext])]

/-- At its turn the host is held, or does what it does alone: it issues its record, or takes a step of its own. -/
theorem hostFollows_of_host (e : step s = .next t) : HostFollows s t := by
  obtain ⟨hl, ⟨r, hact, hr⟩ | ⟨hact, rfl⟩ | ⟨hact, rfl⟩ | ⟨hact, rfl⟩ | ⟨hact, rfl⟩⟩ := step_next e
  case inl =>
    rw [hnext] at hr
    rcases issue_hostView hr with ⟨rfl, i, hd, hh⟩ | ⟨hh, v, hv, hvt⟩
    · exact .inl ⟨rfl, accepted_of_holds (State.nextInstr_of_request hact (by rwa [hnext])) hh⟩
    · refine .inr ⟨v, (hostTurn_hostView hnext hact).trans hv, hvt, accepted_hostView hnext hl fun i hi => hh i ?_⟩
      rw [← hnext]
      exact decode_of_nextInstr hact hi
  all_goals
    have hi : s.nextInstr = none := by simp [State.nextInstr, hact]
    exact .inr ⟨_, hostTurn_hostView hnext hact, rfl, accepted_hostView hnext hl (by simp [hi])⟩

end HostTurn

/-- The serializer's turn leaves the host's fields: with those of `s` put in, the answer is the same. -/
theorem hostView_of_serializer {s t : State} (hnext : s.nextAgent = .serializer) (e : step s = .next t) :
    t.hostView = s.hostView := by
  have hcfg : t.cfg = s.cfg := (step_movesOneWordAtMost e).1
  have hsame : step s = .next (t.withHostOf s) := step_withHostOf s hnext e
  have ht : t = t.withHostOf s := Host.Outcome.next.inj (e.symm.trans hsame)
  rw [ht]
  simp [State.hostView, State.withHostOf, hcfg]

/-- The serializer's turn accepts no word. -/
theorem accepted_of_serializer {s : State} (hnext : s.nextAgent = .serializer) : s.accepted = [] := by
  refine State.accepted_of_not_push fun w hw => ?_
  obtain ⟨r, hr, -⟩ := step_serializer hnext
  have hd : decode s.nextAgent r = .ok (.push w) := decode_of_nextInstr (by rw [hnext]; exact hr) hw
  rw [hnext] at hd
  simpa using decode_serializer_ok hd

theorem step_hostFollows {s t : State} (e : step s = .next t) : HostFollows s t := by
  cases hnext : s.nextAgent with
  | host => exact hostFollows_of_host hnext e
  | serializer => exact .inl ⟨hostView_of_serializer hnext e, accepted_of_serializer hnext⟩

/-- The words of the host alone are a matter of the host. -/
theorem hostWords_congr (k : Nat) {s s' : State} (h : s.hostView = s'.hostView) : hostWords k s = hostWords k s' := by
  cases k with
  | zero => rfl
  | succ k => simp only [hostWords, h]

theorem hostWords_succ {k : Nat} {s v : State} (hv : hostTurn s.hostView = .next v) :
    hostWords (k + 1) s = s.hostView.accepted ++ hostWords k v := by
  simp only [hostWords, hv]

/-- More turns only add words. -/
theorem hostWords_isPrefix {k l : Nat} (hkl : k ≤ l) (s : State) : hostWords k s <+: hostWords l s := by
  induction k generalizing l s with
  | zero => exact List.nil_prefix
  | succ k ih =>
    obtain ⟨l, rfl⟩ := Nat.exists_eq_succ_of_ne_zero (Nat.ne_zero_of_lt hkl)
    cases hv : hostTurn s.hostView with
    | next v =>
      rw [hostWords_succ hv, hostWords_succ hv, List.prefix_append_right_inj]
      exact ih (Nat.le_of_succ_le_succ hkl) v
    | fault f => simp [hostWords, hv]
    | refused why => simp [hostWords, hv]

/-- The words a run accepts are those of some number of the host's turns alone. -/
theorem acceptedIn_eq_hostWords (n : Nat) : ∀ s t : State, core.run n s = .next t →
    ∃ k, acceptedIn n s = hostWords k s := by
  induction n with
  | zero => exact fun _ _ _ => ⟨0, rfl⟩
  | succ n ih =>
    intro s t h
    obtain ⟨u, hu, hr⟩ := run_succ_next h
    obtain ⟨k, hk⟩ := ih u t hr
    rw [acceptedIn_succ hu, hk]
    obtain ⟨hview, hacc⟩ | ⟨v, hv, hview, hacc⟩ := step_hostFollows hu
    · exact ⟨k, by rw [hacc, List.nil_append, hostWords_congr k hview]⟩
    · exact ⟨k + 1, by rw [hacc, hostWords_succ hv, hostWords_congr k hview]⟩

end Sys2Proof.Machine

/-! ## Depth and schedule (42_pixel_stream.md rule R149) -/

namespace Sys2Proof.Machine

/-- The line of a run is an initial part of the one the host alone would fill, given enough turns. -/
theorem run_out_isPrefix_hostWords {n : Nat} {s t : State} (h : core.run n s = .next t) :
    ∃ k, ∀ l, k ≤ l → t.out <+: s.out ++ (s.queue ++ hostWords l s).map line := by
  obtain ⟨k, hk⟩ := acceptedIn_eq_hostWords n s t h
  refine ⟨k, fun l hkl => (run_out_isPrefix h).trans ?_⟩
  rw [List.prefix_append_right_inj, hk]
  exact ((List.prefix_append_right_inj _).mpr (hostWords_isPrefix hkl s)).map line

/-- Two runs whose hosts, queues and lines begin alike put comparable words on the line. -/
theorem run_out_comparable {n m : Nat} {s s' t u : State} (hview : s'.hostView = s.hostView)
    (hq : s'.queue = s.queue) (ho : s'.out = s.out) (ht : core.run n s = .next t) (hu : core.run m s' = .next u) :
    t.out <+: u.out ∨ u.out <+: t.out := by
  obtain ⟨k, hk⟩ := run_out_isPrefix_hostWords ht
  obtain ⟨k', hk'⟩ := run_out_isPrefix_hostWords hu
  have hpre' := hk' (max k k') (le_max_right k k')
  rw [hq, ho, hostWords_congr _ hview] at hpre'
  exact List.prefix_or_prefix_of_prefix (hk (max k k') (le_max_left k k')) hpre'

theorem step_queueBounded {s t : State} (h : s.QueueBounded) (e : step s = .next t) : t.QueueBounded := by
  unfold State.QueueBounded at h ⊢
  obtain ⟨hcfg, ⟨hq, -⟩ | ⟨w, hroom, hq, -⟩ | ⟨w, rest, hs, hq, -⟩⟩ := step_movesOneWordAtMost e
  · rwa [hcfg, hq]
  · rw [hcfg, hq, List.length_append]
    exact hroom
  · rw [hcfg, hq]
    exact Nat.le_of_succ_le (by simpa [hs] using h)

/-- Every run keeps the configuration. -/
theorem run_cfg {n : Nat} {s t : State} (h : core.run n s = .next t) : t.cfg = s.cfg :=
  run_induction (P := fun u => u.cfg = s.cfg) (fun _ _ hu e => (step_movesOneWordAtMost e).1.trans hu) n s t rfl h

/-- From an empty queue the words accepted beyond those taken are those queued at the end, `QDEPTH` at most. -/
theorem acceptedIn_length_le {n : Nat} {s t : State} (hq : s.queue = []) (h : core.run n s = .next t) :
    (acceptedIn n s).length ≤ (takenIn n s).length + s.cfg.qdepth := by
  have hstart : s.QueueBounded := by simp [State.QueueBounded, hq]
  have hbound : t.queue.length ≤ s.cfg.qdepth :=
    run_cfg h ▸ run_induction (fun _ _ => step_queueBounded) n s t hstart h
  have hwords : acceptedIn n s = takenIn n s ++ t.queue := by simpa [hq] using (run_conserves n s t h).1
  rw [hwords, List.length_append]
  omega

/-- Settles O38: depth and schedule are no part of the host alone, and the queue holds what the host is ahead by. -/
theorem lineIsIndependentOfDepthAndSchedule : Obligations.LineIsIndependentOfDepthAndSchedule :=
  ⟨fun _ _ _ _ _ _ _ => run_out_comparable rfl rfl rfl, fun _ _ _ => acceptedIn_length_le⟩

end Sys2Proof.Machine

/-! ## Marked states (10_state.md rules R26, R27; 60_exceptions.md rule R167) -/

namespace Sys2Proof.Machine

/-! Every answer is guarded by the marks: guarding it once more changes nothing. -/

theorem whenLive_whenLive (s : State) (k : Result) : whenLive s (whenLive s k) = whenLive s k := by
  unfold whenLive
  split
  · rfl
  · split <;> rfl

theorem whenLive_exec (i : Instr) (s : State) : whenLive s (exec i s) = exec i s := by
  cases i with
  | convert h sat v => exact whenLive_whenLive s _
  | push w => exact whenLive_whenLive s _
  | emit => exact whenLive_whenLive s _
  | reserved => exact whenLive_whenLive s _

/-- A record that names an instruction inherits the guard of the instruction's meaning. -/
theorem whenLive_issue (a : Agent) (r : Record) (s : State) : whenLive s (issue a r s) = issue a r s := by
  unfold issue
  cases decode a r with
  | error why => exact whenLive_whenLive s _
  | ok i =>
    dsimp only
    rw [← whenLive_exec i s]
    unfold whenLive
    split
    · rfl
    · split <;> rfl

theorem whenLive_perform (a : Agent) (act : Action) (s : State) : whenLive s (perform a act s) = perform a act s := by
  cases act with
  | request r => exact whenLive_issue a r s
  | sample => exact whenLive_whenLive s _
  | endFrame => exact whenLive_whenLive s _
  | pace => exact whenLive_whenLive s _
  | idle => exact whenLive_whenLive s _

/-- Taking the turn touches no mark, so the guard may read the marks before it. -/
theorem whenLive_step (s : State) : whenLive s (step s) = step s :=
  whenLive_perform s.nextAgent (s.actionOf s.nextAgent) s.takeTurn

/-- No run leaves a marked state. -/
theorem run_succ_ne_next_of_marked {s : State} (hs : s.live = false) (n : Nat) (t : State) :
    core.run (n + 1) s ≠ .next t := by
  intro h
  obtain ⟨u, hu, -⟩ := run_succ_next h
  exact Bool.false_ne_true (hs.symm.trans (step_next hu).1)

/-- Settles O28: a mark answers for every step and instruction, since each is guarded by the marks. That
the fault answers where both are set is the model's choice (log entry 10). -/
theorem markedStateHasNoStep : Obligations.MarkedStateHasNoStep := by
  refine ⟨?faulted, ?refused, ?unmarked, rfl, rfl⟩
  case faulted =>
    intro s f hf
    exact ⟨(whenLive_step s).symm.trans (whenLive_fault hf _),
      fun i => (whenLive_exec i s).symm.trans (whenLive_fault hf _)⟩
  case refused =>
    intro s hf hr
    exact ⟨(whenLive_step s).symm.trans (whenLive_refused hf hr _),
      fun i => (whenLive_exec i s).symm.trans (whenLive_refused hf hr _)⟩
  case unmarked => exact fun s t e => s.live_iff.mp (step_next e).1

end Sys2Proof.Machine

/-! ## Refused records (60_exceptions.md rules R164, R165) -/

namespace Sys2Proof

theorem Operand.isRational_iff (o : Operand) : o.isRational = true ↔ ∃ x, o = .rational x := by
  cases o <;> simp [Operand.isRational]

theorem Operand.isRational_of_rational? {o : Operand} {x : Rat} (h : o.rational? = some x) : o.isRational = true := by
  cases o with
  | rational y => rfl
  | nan | posInf | negInf => cases h

theorem decodeConvert_notRational {r : Record}
    (h : ¬ (r.h.isRational = true ∧ r.s.isRational = true ∧ r.v.isRational = true)) :
    decodeConvert r = .error .notRational := by
  unfold decodeConvert
  split
  · next hh hs hv =>
    exact absurd ⟨Operand.isRational_of_rational? hh, Operand.isRational_of_rational? hs,
      Operand.isRational_of_rational? hv⟩ h
  · rfl

theorem kind_cases : ∀ k : BitVec 2, k = 0b00#2 ∨ k = 0b01#2 ∨ k = 0b10#2 ∨ k = 0b11#2 := by decide

/-- The checks in rule R165's order: the kind, the issuer, the operands. -/
theorem refusalOf_eq_checks (a : Agent) (r : Record) : refusalOf a r =
    if r.kind = 0b11#2 then some .reservedKind
    else if (r.kind = 0b10#2 ∧ a = .host) ∨ (r.kind ≠ 0b10#2 ∧ a = .serializer) then some .wrongIssuer
    else if r.kind = 0b00#2 ∧ ¬ (r.h.isRational = true ∧ r.s.isRational = true ∧ r.v.isRational = true) then
      some .notRational
    else none := by
  obtain ⟨hconvert, hpush, hemit, hreserved, hemitHost, hhostKind⟩ := decoderFollowsTheKindTable a r
  obtain hk | hk | hk | hk := kind_cases r.kind
  · cases a with
    | host =>
      by_cases hrat : r.h.isRational = true ∧ r.s.isRational = true ∧ r.v.isRational = true
      · obtain ⟨⟨h, hh⟩, ⟨s, hs⟩, v, hv⟩ :=
          hrat.imp r.h.isRational_iff.mp (And.imp r.s.isRational_iff.mp r.v.isRational_iff.mp)
        rw [(hconvert h s v hk rfl hh hs hv).2]
        simp [hk, hrat]
      · have hd : decode .host r = .error .notRational := by
          rw [decode_kind00 _ hk, onlyFrom_self, decodeConvert_notRational hrat]
        rw [refusalOf_of_decode_error hd, if_neg (by simp [hk]), if_neg (by simp [hk]), if_pos ⟨hk, hrat⟩]
    | serializer => simp [hhostKind (.inl hk) rfl, hk]
  · cases a with
    | host => simp [(hpush hk rfl).2, hk]
    | serializer => simp [hhostKind (.inr hk) rfl, hk]
  · cases a with
    | host => simp [hemitHost hk rfl, hk]
    | serializer => simp [(hemit hk rfl).2, hk]
  · simp [(hreserved hk).2, hk]

/-- A record is refused by the decoder, or it names the reserved row. -/
theorem decode_of_refusalOf_some {a : Agent} {r : Record} {why : RecordRefusal} (h : refusalOf a r = some why) :
    decode a r = .error why ∨ decode a r = .ok .reserved := by
  cases hd : decode a r with
  | error e =>
    rw [refusalOf_of_decode_error hd] at h
    cases h
    exact .inl rfl
  | ok i =>
    rw [refusalOf_of_decode_ok hd] at h
    cases i with
    | reserved => exact .inr rfl
    | convert _ _ _ | push _ | emit => cases h

theorem decode_of_refusalOf_none {a : Agent} {r : Record} (h : refusalOf a r = none) :
    ∃ i, decode a r = .ok i ∧ i.wf = true := by
  cases hd : decode a r with
  | error e =>
    rw [refusalOf_of_decode_error hd] at h
    cases h
  | ok i =>
    rw [refusalOf_of_decode_ok hd] at h
    exact ⟨i, rfl, by simpa using h⟩

end Sys2Proof

namespace Sys2Proof.Machine

/-- A refused record sets the mark and the agent that issued it does not go on, whether the decoder refuses it or the
reserved kind's meaning does. -/
theorem issue_of_refusalOf_some {a : Agent} {r : Record} {why : RecordRefusal} {s : State} (hl : s.live = true)
    (h : refusalOf a r = some why) : issue a r s = .next s.refuse := by
  obtain hd | hd := decode_of_refusalOf_some h
  · exact issue_refused hl hd
  · rw [issue_ok hd (whenLive_of_live hl _), State.settle_dead _ _ s.refuse_live]

/-- Settles O20: the checks in order, the mark of a refused record, and the meaning of one that passes. -/
theorem refusedRecordMarksAndStops : Obligations.RefusedRecordMarksAndStops := by
  refine ⟨refusalOf_eq_checks, ?refused, ?performed⟩
  case refused =>
    exact fun a r why s hl h => ⟨issue_of_refusalOf_some hl h, run_succ_ne_next_of_marked s.refuse_live⟩
  case performed =>
    intro a r s hl h
    obtain ⟨i, hd, hwf⟩ := decode_of_refusalOf_none h
    obtain ⟨t, ht⟩ := exec_of_live i hl
    exact ⟨i, t, hd, hwf, ht, issue_ok hd ht⟩

end Sys2Proof.Machine

/-! ## Reset (70_reset_and_hazards.md rules R180, R182; 10_state.md rule R22) -/

namespace Sys2Proof.Machine

/-- Settles O35: the first two clauses are the reset values as they are written, and every step keeps the
configuration, so every run does. -/
theorem resetStartsTheHostInSample : Obligations.ResetStartsTheHostInSample :=
  ⟨⟨rfl, rfl, rfl⟩, ⟨rfl, rfl, rfl, rfl⟩, fun _ _ _ => run_cfg⟩

end Sys2Proof.Machine

/-! ## The decoder and its rows (30_encoding.md sections 1 and 4) -/

namespace Sys2Proof

/-- An operation that decodes was requested by its own agent. -/
theorem onlyFrom_ok {who issuer : Agent} {d : Except RecordRefusal Instr} {i : Instr}
    (h : onlyFrom who issuer d = .ok i) : issuer = who ∧ d = .ok i := by
  unfold onlyFrom at h
  split at h
  · next ha => exact ⟨ha, h⟩
  · cases h

theorem Operand.eq_rational_of_rational? {o : Operand} {x : Rat} (h : o.rational? = some x) : o = .rational x := by
  cases o with
  | rational y => rw [Option.some.inj h]
  | nan | posInf | negInf => cases h

/-- A CONVERT that decodes has the rationals of its three lanes as operands. -/
theorem decodeConvert_ok {r : Record} {i : Instr} (hd : decodeConvert r = .ok i) :
    ∃ h s v, r.h = .rational h ∧ r.s = .rational s ∧ r.v = .rational v ∧ i = .convert h s v := by
  unfold decodeConvert at hd
  split at hd
  · next h s v hh hs hv =>
    exact ⟨h, s, v, Operand.eq_rational_of_rational? hh, Operand.eq_rational_of_rational? hs,
      Operand.eq_rational_of_rational? hv, (Except.ok.inj hd).symm⟩
  · cases hd

/-- Every record that decodes is of the row decoded: its kind, its issuer (none for the reserved kind), and the lanes
that the kind reads. -/
theorem decode_ok_cases {a : Agent} {r : Record} {i : Instr} (hd : decode a r = .ok i) :
    (r.kind = 0b00#2 ∧ a = .host ∧ ∃ h s v, r.h = .rational h ∧ r.s = .rational s ∧ r.v = .rational v ∧
      i = .convert h s v) ∨
    (r.kind = 0b01#2 ∧ a = .host ∧ i = .push r.w) ∨ (r.kind = 0b10#2 ∧ a = .serializer ∧ i = .emit) ∨
    (r.kind = 0b11#2 ∧ i = .reserved) := by
  obtain hk | hk | hk | hk := kind_cases r.kind
  · rw [decode_kind00 a hk] at hd
    obtain ⟨rfl, hd⟩ := onlyFrom_ok hd
    exact .inl ⟨hk, rfl, decodeConvert_ok hd⟩
  · rw [decode_kind01 a hk] at hd
    obtain ⟨rfl, hd⟩ := onlyFrom_ok hd
    exact .inr (.inl ⟨hk, rfl, (Except.ok.inj hd).symm⟩)
  · rw [decode_kind10 a hk] at hd
    obtain ⟨rfl, hd⟩ := onlyFrom_ok hd
    exact .inr (.inr (.inl ⟨hk, rfl, (Except.ok.inj hd).symm⟩))
  · rw [decode_kind11 a hk] at hd
    exact .inr (.inr (.inr ⟨hk, (Except.ok.inj hd).symm⟩))

/-- A record that decodes has the kind of the instruction's own record. -/
theorem kind_of_decode {a : Agent} {r : Record} {i : Instr} (hd : decode a r = .ok i) : (encode i).kind = r.kind := by
  obtain ⟨hk, -, h, s, v, -, -, -, rfl⟩ | ⟨hk, -, rfl⟩ | ⟨hk, -, rfl⟩ | ⟨hk, rfl⟩ := decode_ok_cases hd
  all_goals exact hk.symm

/-- A record that decodes to an operation was issued by the agent of the operation. -/
theorem issuer_of_decode {a : Agent} {r : Record} {i : Instr} (hd : decode a r = .ok i) (hwf : i.wf = true) :
    a = i.issuer := by
  obtain ⟨-, rfl, h, s, v, -, -, -, rfl⟩ | ⟨-, rfl, rfl⟩ | ⟨-, rfl, rfl⟩ | ⟨-, rfl⟩ := decode_ok_cases hd
  · rfl
  · rfl
  · rfl
  · cases hwf

theorem decode_encode (i : Instr) : decode i.issuer (encode i) = .ok i := by
  cases i with
  | convert h s v => exact Laws.DecodeEncode.convert h s v
  | push w => exact Laws.DecodeEncode.push w
  | emit => exact Laws.DecodeEncode.emit
  | reserved => exact Laws.DecodeEncode.reserved

theorem encode_wf {i : Instr} (hwf : i.wf = true) : (encode i).wf i.issuer = true := by
  cases i with
  | convert h s v => rfl
  | push w => rfl
  | emit => rfl
  | reserved => cases hwf

/-- Settles O22: the record of each row by the two tables, and kind, issuer and word by the rows a record can
decode to. -/
theorem decodeOfEncodeIsTheInstruction : Obligations.DecodeOfEncodeIsTheInstruction := by
  refine ⟨fun i => ⟨decode_encode i, encode_wf⟩, fun a r i hd => ⟨kind_of_decode hd, issuer_of_decode hd, ?_⟩⟩
  rintro w rfl
  obtain ⟨-, -, h, s, v, -, -, -, hi⟩ | ⟨-, -, hi⟩ | ⟨-, -, hi⟩ | ⟨-, hi⟩ := decode_ok_cases hd
  · cases hi
  · exact (Instr.push.inj hi).symm
  · cases hi
  · cases hi

/-- The three checks pass exactly where rule R165 finds no reason to refuse the record: a table of the four kinds and
the two issuers. -/
theorem Record.wf_iff_refusalOf (a : Agent) (r : Record) : r.wf a = true ↔ refusalOf a r = none := by
  rw [refusalOf_eq_checks]
  obtain hk | hk | hk | hk := kind_cases r.kind
  all_goals cases a
  all_goals simp [Record.wf, Record.kindWf, Record.issuerWf, Record.operandsWf, hk, and_assoc]

/-- Settles O21: both sides say that the record is not refused. -/
theorem wellFormedRecordsAreTheOnesPerformed : Obligations.WellFormedRecordsAreTheOnesPerformed := by
  intro a r
  rw [Record.wf_iff_refusalOf]
  constructor
  · intro h
    obtain ⟨i, hd, hwf⟩ := decode_of_refusalOf_none h
    exact ⟨i, hwf, hd⟩
  · rintro ⟨i, hwf, hd⟩
    rw [refusalOf_of_decode_ok hd, if_pos hwf]

/-- Settles O23, by evaluation of the decoder on each record. -/
theorem writtenRecordsDecode : Obligations.WrittenRecordsDecode :=
  ⟨rfl, rfl, rfl, rfl, rfl, rfl, rfl, rfl⟩

end Sys2Proof

/-! ## Fair turns (10_state.md rule R20, 42_pixel_stream.md rule R146) -/

namespace Sys2Proof.Machine

/-- What an instruction leaves of a state: all but the queue, the line, the marks and the word returned. -/
def State.surroundings (s : State) : State :=
  { s with queue := [], out := [], fault := none, refused := false, ret := 0 }

/-- The frame of every instruction: it leaves the surroundings. -/
theorem exec_surroundings {i : Instr} {s t : State} (e : exec i s = .next t) : t.surroundings = s.surroundings := by
  cases i with
  | convert h sat v => obtain ⟨-, ⟨w, -, rfl⟩ | ⟨f, -, rfl⟩⟩ := execConvert_next e <;> rfl
  | push w => obtain ⟨-, ⟨-, rfl⟩ | ⟨-, rfl⟩⟩ := execPush_next e <;> rfl
  | emit => obtain ⟨-, ⟨-, rfl⟩ | ⟨w, rest, -, rfl⟩⟩ := execEmit_next e <;> rfl
  | reserved => obtain ⟨-, rfl⟩ := execReserved_next e; rfl

theorem exec_sched {i : Instr} {s t : State} (e : exec i s = .next t) : t.sched = s.sched :=
  (congrArg State.sched (exec_surroundings e) :)

theorem exec_prog {i : Instr} {s t : State} (e : exec i s = .next t) : t.prog = s.prog :=
  (congrArg State.prog (exec_surroundings e) :)

theorem exec_serRecords {i : Instr} {s t : State} (e : exec i s = .next t) : t.serRecords = s.serRecords :=
  (congrArg State.serRecords (exec_surroundings e) :)

/-- A step changes the schedule by the turn it takes. -/
theorem step_sched {s t : State} (e : step s = .next t) : t.sched = s.takeTurn.sched := by
  obtain ⟨-, ⟨r, -, hr⟩ | ⟨-, rfl⟩ | ⟨-, rfl⟩ | ⟨-, rfl⟩ | ⟨-, rfl⟩⟩ := step_next e
  case inl =>
    obtain ⟨-, ⟨-, rfl⟩ | ⟨i, u, -, hu, rfl⟩⟩ := issue_next hr
    · rfl
    · rw [State.settle_sched]
      exact exec_sched hu
  all_goals rfl

theorem agent_ne_host_iff {a : Agent} : a ≠ .host ↔ a = .serializer := by cases a <;> simp

theorem agent_ne_serializer_iff {a : Agent} : a ≠ .serializer ↔ a = .host := by cases a <;> simp

/-- The number of turns before the next one of `a`, the free round that follows the turns chosen counted in. -/
def State.turnsBefore (s : State) (a : Agent) : Nat := (s.sched.turns ++ freeRound s.sched.rounds).idxOf a

/-- Every free round has a turn of each agent. -/
theorem mem_freeRound (a : Agent) (n : Nat) : a ∈ freeRound n := by
  cases a <;> simp [freeRound]

/-- A turn of the other agent brings the next turn of `a` nearer: a free round, which begins with the host's turns, has
one of the serializer's after them. -/
theorem turnsBefore_takeTurn_lt {s : State} {a : Agent} (hne : s.nextAgent ≠ a) :
    s.takeTurn.turnsBefore a < s.turnsBefore a := by
  unfold State.turnsBefore
  cases hturns : s.sched.turns with
  | cons b rest =>
    obtain ⟨hb, -⟩ := State.takeTurn_turns_cons hturns
    rw [State.takeTurn_of_turns hturns, List.cons_append, List.idxOf_cons_ne _ (hb ▸ hne)]
    exact Nat.lt_succ_self _
  | nil =>
    obtain ⟨hhost, hrest⟩ := State.takeTurn_turns_nil hturns
    have hne' : Agent.host ≠ a := hhost ▸ hne
    have hround : freeRound s.sched.rounds = .host :: (freeRound s.sched.rounds).tail := rfl
    have hmem : a ∈ (freeRound s.sched.rounds).tail :=
      (List.mem_cons.mp (hround ▸ mem_freeRound a s.sched.rounds)).resolve_left hne'.symm
    rw [hrest, List.idxOf_append_of_mem hmem, List.nil_append, hround, List.idxOf_cons_ne _ hne']
    exact Nat.lt_succ_self _

/-- Induction on the wait for the turn of `a`, which comes (log entry 5): what holds at that turn, and before it when
the next step leads to where it holds, holds of every state. -/
theorem turn_induction {P : State → Prop} (a : Agent) (hturn : ∀ s, s.nextAgent = a → P s)
    (hwait : ∀ s, s.nextAgent ≠ a → (∀ t, step s = .next t → P t) → P s) (s : State) : P s := by
  induction hn : s.turnsBefore a using Nat.strong_induction_on generalizing s with
  | _ n ih =>
    subst hn
    by_cases hnext : s.nextAgent = a
    · exact hturn s hnext
    · refine hwait s hnext fun t e => ih _ ?_ t rfl
      rw [State.turnsBefore, step_sched e]
      exact turnsBefore_takeTurn_lt hnext

end Sys2Proof.Machine

/-! ## Every word reaches the line (42_pixel_stream.md section 3) -/

namespace Sys2Proof.Machine

theorem State.settle_serRecords_nil {t : State} (hser : t.serRecords = []) (s : State) (a : Agent) (i : Instr) :
    (s.settle a i t).serRecords = [] := by
  unfold State.settle State.agentDone
  split
  · exact hser
  · split
    · exact hser
    · exact hser
    · exact congrArg List.tail hser

/-- A serializer that issues EMITs of its own goes on to do so. -/
theorem step_serRecords_nil {s t : State} (hser : s.serRecords = []) (e : step s = .next t) : t.serRecords = [] := by
  obtain ⟨-, ⟨r, -, hr⟩ | ⟨-, rfl⟩ | ⟨-, rfl⟩ | ⟨-, rfl⟩ | ⟨-, rfl⟩⟩ := step_next e
  case inl =>
    obtain ⟨-, ⟨-, rfl⟩ | ⟨i, u, -, hu, rfl⟩⟩ := issue_next hr
    · exact hser
    · exact State.settle_serRecords_nil ((exec_serRecords hu).trans hser) ..
  all_goals exact hser

/-- What the liveness of the stream rests on: the serializer issues EMITs, a word has room in the empty queue, and
every run answers a next state. -/
structure State.Streams (s : State) : Prop where
  serializer : s.serRecords = []
  depth      : 1 ≤ s.cfg.qdepth
  endless    : ∀ n, ∃ t, core.run n s = .next t

theorem State.Streams.step {s : State} (h : s.Streams) : ∃ t, step s = .next t ∧ t.Streams := by
  obtain ⟨v, hv⟩ := h.endless 1
  obtain ⟨t, e, -⟩ := run_succ_next hv
  refine ⟨t, e, step_serRecords_nil h.serializer e, (step_movesOneWordAtMost e).1 ▸ h.depth, fun n => ?_⟩
  obtain ⟨u, hu⟩ := h.endless (n + 1)
  obtain ⟨t', e', hr⟩ := run_succ_next hu
  obtain rfl : t = t' := Host.Outcome.next.inj (e.symm.trans e')
  exact ⟨u, hr⟩

theorem State.Streams.live {s : State} (h : s.Streams) : s.live = true := by
  obtain ⟨t, e, -⟩ := h.step
  exact (step_next e).1

/-- What stands on the line and what is to follow from the queue: a step only adds to it. -/
def State.lineToCome (s : State) : List Word24 := s.out ++ s.queue.map line

theorem step_lineToCome {s t : State} (e : step s = .next t) : s.lineToCome <+: t.lineToCome := by
  obtain ⟨-, ⟨hq, ho⟩ | ⟨w, -, hq, ho⟩ | ⟨w, rest, hs, hq, ho⟩⟩ := step_movesOneWordAtMost e
  · simp [State.lineToCome, hq, ho]
  · simp [State.lineToCome, hq, ho]
  · simp [State.lineToCome, hs, hq, ho]

theorem step_out_length {s t : State} (e : step s = .next t) : s.out.length ≤ t.out.length := by
  rw [(step_conservesWords e).2, List.length_append]
  exact Nat.le_add_right ..

/-- Words in front of the queue's end reach the line, `m` words or fewer being still to come: each turn of the
serializer transmits one. -/
theorem exists_run_transmits {l : List Word24} (m : Nat) : ∀ s : State, s.Streams → l <+: s.lineToCome →
    l.length ≤ s.out.length + m → ∃ n t, core.run n s = .next t ∧ l <+: t.out := by
  induction m with
  | zero =>
    exact fun s _ hl hlen => ⟨0, s, rfl, List.prefix_of_prefix_length_le hl (List.prefix_append ..) hlen⟩
  | succ m ihm =>
    intro s
    induction s using turn_induction (a := .serializer) with
    | hturn s hnext =>
      intro h hl hlen
      cases hq : s.queue with
      | nil => exact ⟨0, s, rfl, by simpa [State.lineToCome, hq] using hl⟩
      | cons w rest =>
        obtain ⟨t, e, ht⟩ := h.step
        have hout : t.out.length = s.out.length + 1 := by
          rw [← Host.Outcome.next.inj ((step_ownEmit_cons h.live h.serializer hnext hq).symm.trans e)]
          simp
        obtain ⟨n, u, hr, hu⟩ := ihm t ht (hl.trans (step_lineToCome e)) (by omega)
        exact ⟨n + 1, u, run_cons e hr, hu⟩
    | hwait s hne ihs =>
      intro h hl hlen
      obtain ⟨t, e, ht⟩ := h.step
      obtain ⟨n, u, hr, hu⟩ := ihs t e ht (hl.trans (step_lineToCome e))
        (hlen.trans (Nat.add_le_add_right (step_out_length e) _))
      exact ⟨n + 1, u, run_cons e hr, hu⟩

section HeldPush
variable {s t : State} {r : Record} {w : Word32}

/-- A step that accepts nothing is no part of what a run accepts. -/
theorem exists_acceptedIn_of_step {l : List Word32} (e : step s = .next t) (ha : s.accepted = [])
    (h : ∃ n, acceptedIn n t = l) : ∃ n, acceptedIn n s = l := by
  obtain ⟨n, hn⟩ := h
  exact ⟨n + 1, by rw [acceptedIn_succ e, ha, List.nil_append, hn]⟩

theorem hostAction_of_serializer (hnext : s.nextAgent = .serializer) (e : step s = .next t) :
    t.hostAction = s.hostAction :=
  (congrArg State.hostAction (hostView_of_serializer hnext e) :)

theorem queue_length_of_serializer (hnext : s.nextAgent = .serializer) (e : step s = .next t) :
    t.queue.length ≤ s.queue.length := by
  have hq := (step_conservesWords e).1
  rw [accepted_of_serializer hnext, List.append_nil] at hq
  rw [hq, List.length_append]
  exact Nat.le_add_left ..

variable (hact : s.hostAction = .request r) (hd : decode .host r = .ok (.push w)) (hnext : s.nextAgent = .host)
include hact hd hnext

theorem nextInstr_hostPush : s.nextInstr = some (.push w) :=
  State.nextInstr_of_request (r := r) (by rw [hnext]; exact hact) (by rwa [hnext])

/-- A host whose PUSH is held stands still for a turn. -/
theorem step_hostPush_held (hl : s.live = true) (hr : s.hasRoom = false) : step s = .next s.takeTurn := by
  rw [step_request (r := r) (by rw [hnext]; exact hact), hnext, issue_ok hd (execPush_held (s := s.takeTurn) hl hr),
    State.settle_held .host (by simp [hr])]

end HeldPush

section Pending
variable {r : Record} {w : Word32} (hd : decode .host r = .ok (.push w))
include hd

/-- With room the requested PUSH is accepted at the host's next turn: until then only the serializer has turns. -/
theorem exists_acceptedIn_of_hasRoom (s : State) : s.Streams → s.hostAction = .request r → s.hasRoom = true →
    ∃ n, acceptedIn n s = [w] := by
  induction s using turn_induction (a := .host) with
  | hturn s hnext =>
    intro h hact hr
    obtain ⟨t, e, -⟩ := h.step
    have ha : s.accepted = [w] := by
      simp [State.accepted_of_push (nextInstr_hostPush hact hd hnext), State.pushEnabled, hr, h.live]
    exact ⟨1, by rw [acceptedIn_succ e, ha]; rfl⟩
  | hwait s hne ih =>
    intro h hact hr
    have hnext : s.nextAgent = .serializer := agent_ne_host_iff.mp hne
    obtain ⟨t, e, ht⟩ := h.step
    have hroom : t.hasRoom = true := by
      rw [State.hasRoom_iff, (step_movesOneWordAtMost e).1]
      exact (queue_length_of_serializer hnext e).trans_lt (s.hasRoom_iff.mp hr)
    exact exists_acceptedIn_of_step e (accepted_of_serializer hnext)
      (ih t e ht ((hostAction_of_serializer hnext e).trans hact) hroom)

/-- A requested PUSH is accepted, however many words the queue holds: while it is held each turn of the serializer
takes one of them. -/
theorem exists_acceptedIn_of_length_le (m : Nat) : ∀ s : State, s.Streams → s.hostAction = .request r →
    s.queue.length ≤ m → ∃ n, acceptedIn n s = [w] := by
  induction m with
  | zero =>
    intro s h hact hlen
    exact exists_acceptedIn_of_hasRoom hd s h hact (s.hasRoom_iff.mpr (hlen.trans_lt h.depth))
  | succ m ihm =>
    intro s
    induction s using turn_induction (a := .serializer) with
    | hturn s hnext =>
      intro h hact hlen
      cases hq : s.queue with
      | nil => exact ihm s h hact (by simp [hq])
      | cons w' rest =>
        have e := step_ownEmit_cons h.live h.serializer hnext hq
        obtain ⟨t, e', ht⟩ := h.step
        obtain rfl := Host.Outcome.next.inj (e.symm.trans e')
        refine exists_acceptedIn_of_step e (accepted_of_serializer hnext) (ihm _ ht hact ?_)
        simpa [hq] using hlen
    | hwait s hne ih =>
      intro h hact hlen
      cases hr : s.hasRoom with
      | true => exact exists_acceptedIn_of_hasRoom hd s h hact hr
      | false =>
        have hnext : s.nextAgent = .host := agent_ne_serializer_iff.mp hne
        have e := step_hostPush_held hact hd hnext h.live hr
        obtain ⟨t, e', ht⟩ := h.step
        obtain rfl := Host.Outcome.next.inj (e.symm.trans e')
        have ha : s.accepted = [] := accepted_of_holds (nextInstr_hostPush hact hd hnext) (by simp [hr])
        exact exists_acceptedIn_of_step e ha (ih _ e ht hact hlen)

end Pending

/-- Settles O39: by the serializer's turns the words queued reach the line, and by both agents' turns a requested PUSH
is accepted. -/
theorem everyAcceptedWordIsTransmitted : Obligations.EveryAcceptedWordIsTransmitted := by
  intro s hser hdepth hend
  have h : s.Streams := ⟨hser, hdepth, hend⟩
  refine ⟨exists_run_transmits s.queue.length s h List.prefix_rfl (by simp), fun r w hact hd => ?_⟩
  exact exists_acceptedIn_of_length_le hd s.queue.length s h hact le_rfl

end Sys2Proof.Machine

/-! ## A frame in pixel order (41_host_environment.md rules R126, R127) -/

namespace Sys2Proof.Machine

/-- The frame at hand once its pixels up to the index have been pushed and `words` been accepted: they are those
pixels' words in order, the one that awaits its PUSH is the next, and a frame at its end is complete. -/
structure State.FrameAt (s : State) (words : List Word32) : Prop where
  run      : s.RepositoryRun
  pushed   : words.map Converted.word = (List.range s.repo.pixel).map s.pixelConverted
  awaiting : s.repo.phase = .awaitPush → .word s.repo.word = s.pixelConverted s.repo.pixel
  complete : s.repo.phase = .pace ∨ s.repo.phase = .sample → s.repo.pixel = s.cfg.nLeds

theorem State.RepositoryRun.of_step {s t : State} (h : s.RepositoryRun) (e : step s = .next t) : t.RepositoryRun := by
  obtain ⟨t', e', ht⟩ := h.exists_step
  obtain rfl : t = t' := Host.Outcome.next.inj (e.symm.trans e')
  exact ht

/-- The host renders the pixel at hand at the hue of the frame's pixel of that index (rules R124, R125). -/
theorem State.RepositoryRun.pixelHue_eq {s : State} (h : s.RepositoryRun) :
    pixelHue s.cfg s.repo = s.hueOfPixel s.repo.pixel := by
  cases hm : s.cfg.hueMode with
  | sweep => rw [pixelHue_of_sweep _ hm, State.hueOfPixel, hm, h.hueAcc]
  | sensor => rw [pixelHue_of_sensor _ hm, State.hueOfPixel, hm]

/-- The serializer's turn leaves the repository's host. -/
theorem repo_of_serializer {s t : State} (hnext : s.nextAgent = .serializer) (e : step s = .next t) :
    t.repo = s.repo :=
  (congrArg State.repo (hostView_of_serializer hnext e) :)

/-- What a frame pushes depends on the host and the configuration alone. -/
theorem State.FrameAt.congr {s t : State} {words : List Word32} (h : s.FrameAt words) (ht : t.RepositoryRun)
    (hc : t.cfg = s.cfg) (hr : t.repo = s.repo) : t.FrameAt words := by
  have hp : t.pixelConverted = s.pixelConverted := by
    funext k; simp only [State.pixelConverted, State.hueOfPixel, hc, hr]
  exact ⟨ht, by rw [hr, hp]; exact h.pushed, by rw [hr, hp]; exact h.awaiting, by rw [hr, hc]; exact h.complete⟩

section HostTurn
variable {s : State} {words : List Word32} (h : s.FrameAt words) (hnext : s.nextAgent = .host)
include h hnext

theorem State.FrameAt.nextInstr_of_request {i : Instr} (hact : repoAction s.cfg s.repo = .request (encode i))
    (hdec : decode .host (encode i) = .ok i) : s.nextInstr = some i :=
  State.nextInstr_of_request ((State.actionOf_repository h.run.driver hnext).trans hact) (by rwa [hnext])

theorem State.FrameAt.accepted_of_ownStep {act : Action} (hact : repoAction s.cfg s.repo = act)
    (hown : act = .endFrame ∨ act = .pace) : s.accepted = [] := by
  have hact' : s.actionOf s.nextAgent = act := (State.actionOf_repository h.run.driver hnext).trans hact
  have hi : s.nextInstr = none := by rcases hown with rfl | rfl <;> simp [State.nextInstr, hact']
  exact State.accepted_of_not_push (by simp [hi])

/-- The CONVERT of the pixel at hand gives the word that then awaits its PUSH. -/
theorem State.FrameAt.convert (hph : s.repo.phase = .render) (hpix : s.repo.pixel < s.cfg.nLeds) :
    ∃ t, step s = .next t ∧ t.FrameAt (words ++ s.accepted) := by
  obtain ⟨w, hw⟩ := convert_word_of_calibrated s.cfg.rangePolicy (pixelHue s.cfg s.repo) h.run.sat h.run.val
  have hi := h.nextInstr_of_request hnext (i := .convert (pixelHue s.cfg s.repo) s.repo.sat s.repo.val)
    (by simp [repoAction, hph, hpix]) (Laws.DecodeEncode.convert ..)
  have e := step_repoConvert h.run.live h.run.driver hnext hph hpix hw
  rw [State.accepted_of_not_push (by simp [hi]), List.append_nil]
  exact ⟨_, e, h.run.of_step e, h.pushed, fun _ => by rw [← hw, h.run.pixelHue_eq]; rfl, nofun⟩

/-- The PUSH of the word that awaits it completes its pixel, or is held. -/
theorem State.FrameAt.push (hph : s.repo.phase = .awaitPush) :
    ∃ t, step s = .next t ∧ t.FrameAt (words ++ s.accepted) := by
  have hl := h.run.live
  have hi := h.nextInstr_of_request hnext (i := .push s.repo.word) (by simp [repoAction, hph])
    (Laws.DecodeEncode.push _)
  by_cases hroom : s.queue.length < s.cfg.qdepth
  · have e := step_repoPush hl h.run.driver hnext hph hroom
    have ha : s.accepted = [s.repo.word] := by
      simp [State.accepted_of_push hi, State.pushEnabled, s.hasRoom_iff.mpr hroom, hl]
    refine ⟨_, e, h.run.of_step e, ?_, nofun, nofun⟩
    rw [ha, List.map_append, h.pushed, List.map_singleton, h.awaiting hph]
    simp only [List.range_succ, List.map_append, List.map_singleton]
    rfl
  · have e := step_repoPush_held hl h.run.driver hnext hph hroom
    have hr : s.hasRoom = false := Bool.eq_false_iff.mpr (mt s.hasRoom_iff.mp hroom)
    rw [accepted_of_holds hi (by simp [hr]), List.append_nil]
    exact ⟨_, e, h.congr (h.run.of_step e) rfl rfl⟩

/-- A frame ends at its last pixel. -/
theorem State.FrameAt.endFrame (hph : s.repo.phase = .render) (hpix : ¬ s.repo.pixel < s.cfg.nLeds) :
    ∃ t, step s = .next t ∧ t.FrameAt (words ++ s.accepted) := by
  have e := step_repoEndFrame h.run.live h.run.driver hnext hph hpix
  rw [h.accepted_of_ownStep hnext (act := .endFrame) (by simp [repoAction, hph, hpix]) (.inl rfl), List.append_nil]
  exact ⟨_, e, h.run.of_step e, h.pushed, nofun, fun _ => h.run.pixel.antisymm (not_lt.mp hpix)⟩

theorem State.FrameAt.pace (hph : s.repo.phase = .pace) :
    ∃ t, step s = .next t ∧ t.FrameAt (words ++ s.accepted) := by
  have e := step_repoPace h.run.live h.run.driver hnext hph
  rw [h.accepted_of_ownStep hnext (act := .pace) (by simp [repoAction, hph]) (.inr rfl), List.append_nil]
  exact ⟨_, e, h.run.of_step e, h.pushed, nofun, fun _ => h.complete (.inl hph)⟩

end HostTurn

/-- The repository's host starts a frame at its turn in Sample. -/
theorem sampled_of_sample {s : State} (hdrv : s.driver = .repository) (hnext : s.nextAgent = .host)
    (hph : s.repo.phase = .sample) : s.sampled = 1 :=
  if_pos (by simp [State.actionOf_repository hdrv hnext, repoAction, hph])

theorem sampled_of_serializer {s : State} (hnext : s.nextAgent = .serializer) : s.sampled = 0 := by
  obtain ⟨r, hr, -⟩ := step_serializer hnext
  have hact : s.actionOf s.nextAgent = .request r := by rw [hnext]; exact hr
  exact if_neg (by simp [hact])

/-- A step that starts no other frame goes on with the frame at hand. -/
theorem State.FrameAt.of_step {s t : State} {words : List Word32} (h : s.FrameAt words) (hs : s.sampled = 0)
    (e : step s = .next t) : t.FrameAt (words ++ s.accepted) := by
  cases hnext : s.nextAgent with
  | serializer =>
    rw [accepted_of_serializer hnext, List.append_nil]
    exact h.congr (h.run.of_step e) (step_movesOneWordAtMost e).1 (repo_of_serializer hnext e)
  | host =>
    have hstep : ∃ u, step s = .next u ∧ u.FrameAt (words ++ s.accepted) := by
      cases hph : s.repo.phase with
      | sample => simp [sampled_of_sample h.run.driver hnext hph] at hs
      | render =>
        by_cases hpix : s.repo.pixel < s.cfg.nLeds
        · exact h.convert hnext hph hpix
        · exact h.endFrame hnext hph hpix
      | awaitPush => exact h.push hnext hph
      | pace => exact h.pace hnext hph
    obtain ⟨u, e', hu⟩ := hstep
    obtain rfl : t = u := Host.Outcome.next.inj (e.symm.trans e')
    exact hu

/-- A run that starts no other frame goes on with the frame at hand. -/
theorem State.FrameAt.of_run (n : Nat) : ∀ {s t : State} {words : List Word32}, s.FrameAt words →
    core.run n s = .next t → framesIn n s = 0 → t.FrameAt (words ++ acceptedIn n s) := by
  induction n with
  | zero => intro s t words h hr _; cases hr; simpa [acceptedIn] using h
  | succ n ih =>
    intro s t words h hr hf
    obtain ⟨u, e, hr⟩ := run_succ_next hr
    rw [framesIn_succ e, Nat.add_eq_zero_iff] at hf
    rw [acceptedIn_succ e, ← List.append_assoc]
    exact ih (h.of_step hf.1 e) hr hf.2

/-- The Sample step starts a frame at pixel 0, and accepts no word. -/
theorem State.RepositoryRun.frameAt_sample {s t : State} (h : s.RepositoryRun) (hnext : s.nextAgent = .host)
    (hph : s.repo.phase = .sample) (e : step s = .next t) : s.accepted = [] ∧ t.FrameAt [] := by
  have hact : s.actionOf s.nextAgent = .sample := by
    simp [State.actionOf_repository h.driver hnext, repoAction, hph]
  have hi : s.nextInstr = none := by simp [State.nextInstr, hact]
  have ht := h.of_step e
  obtain rfl := Host.Outcome.next.inj ((step_repoSample h.live h.driver hnext hph).symm.trans e)
  exact ⟨State.accepted_of_not_push (by simp [hi]), ht, rfl, nofun, nofun⟩

/-- A run from Sample that starts one frame leaves that frame at hand, with the words it accepted: before the Sample
step only the serializer has turns, and after it no other frame is started. -/
theorem run_frameAt_of_sample (n : Nat) : ∀ s t : State, s.RepositoryRun → s.repo.phase = .sample →
    core.run n s = .next t → framesIn n s = 1 → t.FrameAt (acceptedIn n s) := by
  induction n with
  | zero => intro s t _ _ _ hf; cases hf
  | succ n ih =>
    intro s t h hph hr hf
    obtain ⟨u, e, hr⟩ := run_succ_next hr
    rw [framesIn_succ e] at hf
    rw [acceptedIn_succ e]
    cases hnext : s.nextAgent with
    | host =>
      rw [sampled_of_sample h.driver hnext hph, Nat.add_eq_left] at hf
      obtain ⟨ha, hframe⟩ := h.frameAt_sample hnext hph e
      rw [ha]
      exact hframe.of_run n hr hf
    | serializer =>
      rw [sampled_of_serializer hnext, Nat.zero_add] at hf
      rw [accepted_of_serializer hnext, List.nil_append]
      exact ih u t (h.of_step e) (by rw [repo_of_serializer hnext e, hph]) hr hf

/-- Settles O46: the frame at hand at the end of the run is the one it started. -/
theorem frameIsStreamedInPixelOrder : Obligations.FrameIsStreamedInPixelOrder := by
  intro n s t h hph hr hf
  have hframe := run_frameAt_of_sample n s t h hph hr hf
  exact ⟨hframe.pushed, hframe.complete⟩

end Sys2Proof.Machine

/-! ## The pseudocode of CONVERT (40_color_model.md rule R89) -/

namespace Sys2Proof.Machine

/-- The multiplexer as the pseudocode writes it: the arms tested in order, the default last. -/
theorem sectorMux_eq_ite (i : Int) (v p q t : Rat) : sectorMux i v p q t =
    if i = 0 then ⟨v, t, p⟩ else if i = 1 then ⟨q, v, p⟩ else if i = 2 then ⟨p, v, t⟩ else if i = 3 then ⟨p, q, v⟩
      else if i = 4 then ⟨t, p, v⟩ else ⟨v, p, q⟩ := by
  unfold sectorMux
  split <;> simp_all

/-- The components as the pseudocode's triple. -/
theorem components_eq_of_triple {h s v r g b : Rat}
    (hrgb : (r, g, b) =
      (if s = 0 then (v, v, v)
        else if sectorIndex h = 0 then (v, interpT (sectorFraction h) s v, interpP s v)
        else if sectorIndex h = 1 then (interpQ (sectorFraction h) s v, v, interpP s v)
        else if sectorIndex h = 2 then (interpP s v, v, interpT (sectorFraction h) s v)
        else if sectorIndex h = 3 then (interpP s v, interpQ (sectorFraction h) s v, v)
        else if sectorIndex h = 4 then (interpT (sectorFraction h) s v, interpP s v, v)
        else (v, interpP s v, interpQ (sectorFraction h) s v))) :
    r = (components h s v).r ∧ g = (components h s v).g ∧ b = (components h s v).b := by
  rw [components, chromatic, sectorMux_eq_ite]
  split_ifs at hrgb ⊢
  all_goals cases hrgb; exact ⟨rfl, rfl, rfl⟩

theorem components_value_zero (h s : Rat) : components h s 0 = ⟨0, 0, 0⟩ := by
  simp [components_eq_blend_sectorMux, Rgb.blend]

/-- Value zero converts to the word zero. -/
theorem convert_value_zero (policy : RangePolicy) (h s : Rat) : convert policy h s 0 = .word 0#32 := by
  refine convert_word_of_fault policy ?_
  rw [convert, components_value_zero]
  decide +kernel

/-- Settles O1: the pseudocode's triple is the components; the policy's clauses are R87's, and a byte inside the window
is the same clamped or not. -/
theorem convertIsThePseudocode : Obligations.ConvertIsThePseudocode := by
  refine ⟨?_, fun st hl => ⟨exec_convert_of_fault hl (by decide +kernel), fun h s =>
    exec_convert_word hl (convert_value_zero _ h s)⟩⟩
  · rintro st h s v _ _ _ _ _ r g b _ hl rfl rfl rfl rfl rfl rfl hrgb inside byte
    obtain ⟨rfl, rfl, rfl⟩ := components_eq_of_triple hrgb
    obtain ⟨hred, hgreen, hblue, -⟩ := rangePolicyDecidesOutsideTheWindow st h s v _ hl rfl
    refine ⟨hred, hgreen, hblue, ?_⟩
    rintro (hp | ⟨hr, hg, hb⟩)
    · exact exec_convert_clamp hl hp
    · have e := exec_convert_word hl (convert_inside hr hg hb)
      rw [← clamp8_of_inWindow hr, ← clamp8_of_inWindow hg, ← clamp8_of_inWindow hb] at e
      exact e

end Sys2Proof.Machine

/-! ## The frame of each instruction -/

namespace Sys2Proof.Machine

/-- Settles O30: the surroundings stay for every instruction, and each writes among the block's fields its own alone. -/
theorem instructionFrames : Obligations.InstructionFrames := by
  refine ⟨fun i s t e => ?surroundings, fun h sat v s t e => ?convert, fun w s t e => ?push, fun s t e => ?emit,
    fun s t e => ?reserved⟩
  case surroundings =>
    have h := exec_surroundings e
    exact ⟨(congrArg State.cfg h :), (congrArg State.driver h :), exec_repo e, exec_prog e,
      exec_serRecords e, (congrArg State.adc h :), exec_sched e⟩
  case convert =>
    obtain ⟨hl, ⟨w, -, rfl⟩ | ⟨f, -, rfl⟩⟩ := execConvert_next e
    · exact ⟨rfl, rfl, rfl, .inl (s.live_iff.mp hl).1⟩
    · exact ⟨rfl, rfl, rfl, .inr rfl⟩
  case push =>
    obtain ⟨-, ⟨-, rfl⟩ | ⟨-, rfl⟩⟩ := execPush_next e
    · exact ⟨rfl, rfl, rfl, rfl⟩
    · exact ⟨rfl, rfl, rfl, rfl⟩
  case emit =>
    obtain ⟨-, ⟨-, rfl⟩ | ⟨w, rest, -, rfl⟩⟩ := execEmit_next e
    · exact ⟨rfl, rfl, rfl⟩
    · exact ⟨rfl, rfl, rfl⟩
  case reserved =>
    obtain ⟨-, rfl⟩ := execReserved_next e
    exact ⟨rfl, rfl, rfl, rfl⟩

/-- Settles O26: a live state is refused by the mark alone. -/
theorem reservedKindIsRefused : Obligations.ReservedKindIsRefused := fun _ hl => whenLive_of_live hl _

end Sys2Proof.Machine

/-! ## The record a step performs (20_memory.md section 5) -/

namespace Sys2Proof.Machine

/-- An instruction faults only in a state that carries the fault: raising one is a next state (log entry 10). -/
theorem fault_of_exec_fault {i : Instr} {s : State} {f : Fault} (e : exec i s = .fault f) : s.fault = some f := by
  rw [← whenLive_exec] at e
  unfold whenLive at e
  split at e
  · next g hg => rw [hg, Host.Outcome.fault.inj e]
  · next hf =>
    split at e
    · cases e
    · next hr =>
      obtain ⟨t, ht⟩ := exec_of_live i (s.live_iff.mpr ⟨hf, by simpa using hr⟩)
      rw [ht] at e
      cases e

/-- Settles O31: the record requested is issued in the state whose turn is taken, and a fault answers step and
instruction alike. -/
theorem stepRunsTheDecodedRecord : Obligations.StepRunsTheDecodedRecord := by
  refine ⟨fun s t r i hact hd e => ?_, fun s i f e => ?_, fun s a i t => ?_, fun s a rest hturns => ?_⟩
  · rw [step_request hact, issue_ok hd e]
  · exact (whenLive_step s).symm.trans (whenLive_fault (fault_of_exec_fault e) _)
  · simp [State.settle]
  · exact ⟨(State.takeTurn_turns_cons hturns).1, State.takeTurn_of_turns hturns⟩

/-- The record placed with an agent is the one that agent issues at the next step. -/
theorem step_place (s : State) (a : Agent) (r : Record) : step (s.place a r) = issue a r (s.place a r).takeTurn := by
  cases a with
  | host => exact step_request (s := s.place .host r) rfl
  | serializer => exact step_request (s := s.place .serializer r) rfl

theorem place_live (s : State) (a : Agent) (r : Record) : (s.place a r).live = s.live := by
  cases a <;> rfl

/-- A placed record that decodes is performed by the next step. -/
theorem step_place_of_decode {s : State} {a : Agent} {r : Record} {i : Instr} (hl : s.live = true)
    (hd : decode a r = .ok i) :
    ∃ t, exec i (s.place a r).takeTurn = .next t ∧
      step (s.place a r) = .next ((s.place a r).takeTurn.settle a i t) := by
  obtain ⟨t, ht⟩ := exec_of_live i (s := (s.place a r).takeTurn) ((place_live s a r).trans hl)
  exact ⟨t, ht, by rw [step_place, issue_ok hd ht]⟩

/-- A table word that decodes stands for a record that its instruction's agent issues (log entry 2). -/
theorem decode_tableRecord {nbits w : Nat} {i : Instr} (h : decodeTableWord nbits w = some i) :
    kindIssuer (tableRecord nbits w).kind = i.issuer ∧ decode i.issuer (tableRecord nbits w) = .ok i := by
  have hd : decode (kindIssuer (tableRecord nbits w).kind) (tableRecord nbits w) = .ok i := by
    unfold decodeTableWord at h
    dsimp only at h
    cases hd : decode (kindIssuer (tableRecord nbits w).kind) (tableRecord nbits w) with
    | error why => simp [hd, Except.toOption] at h
    | ok j => simpa [hd, Except.toOption] using h
  have hissuer : i.issuer = kindIssuer (tableRecord nbits w).kind := congrArg kindIssuer (kind_of_decode hd)
  exact ⟨hissuer.symm, hissuer ▸ hd⟩

/-- Settles O32: a placed record that decodes is performed next, and the records of instructions and table words do. -/
theorem placedRecordRunsNext : Obligations.PlacedRecordRunsNext := by
  refine ⟨fun s i hl => step_place_of_decode hl (decode_encode i), fun s nbits w i hl h => ?_⟩
  obtain ⟨hissuer, hd⟩ := decode_tableRecord h
  rw [State.withFetchWord, hissuer]
  exact step_place_of_decode hl hd

end Sys2Proof.Machine

/-! ## The bounded queue (10_state.md rules R23, R24) -/

namespace Sys2Proof.Machine

theorem State.full_iff (s : State) : s.full = true ↔ s.queue.length = s.cfg.qdepth := by
  simp [State.full]

/-- A bounded queue has no room exactly when it is full. -/
theorem State.QueueBounded.hasRoom_eq_false_iff {s : State} (h : s.QueueBounded) :
    s.hasRoom = false ↔ s.queue.length = s.cfg.qdepth := by
  rw [Bool.eq_false_iff, Ne, s.hasRoom_iff, not_lt]
  exact ⟨fun hge => h.antisymm hge, fun heq => heq.ge⟩

/-- Settles O34: a step moves one word at most, and only where there is room. -/
theorem queueStaysBounded : Obligations.QueueStaysBounded := by
  refine ⟨fun _ _ => step_queueBounded, fun s w h => ⟨?_, s.full_iff, ?_, ?_⟩⟩
  · rw [State.holds_push, Bool.not_eq_true', h.hasRoom_eq_false_iff]
  · rw [State.holds_emit, s.empty_iff, List.length_eq_zero_iff]
  · rw [s.empty_iff, List.length_eq_zero_iff]

/-- Settles O36: the reset values meet each invariant; the zeros of the frame's saturation and value are calibrated. -/
theorem resetMeetsTheInvariants : Obligations.ResetMeetsTheInvariants := by
  have hadmitted : State.reset.cfg.admitted := ⟨rfl, rfl, rfl, Nat.succ_pos _, rfl, rfl, rfl, rfl, rfl⟩
  have hbounded : State.reset.QueueBounded := Nat.zero_le _
  have hzero : Calibrated 0 := ⟨by norm_num, zero_le_one⟩
  refine ⟨hadmitted, hbounded, ?_, rfl⟩
  exact {
    admitted := hadmitted
    live := rfl
    driver := rfl
    serializer := rfl
    bounded := hbounded
    sat := hzero
    val := hzero
    pixel := Nat.zero_le _
    awaiting := nofun
    hueAcc := by simp [State.reset] }

end Sys2Proof.Machine

/-! ## What the host can see (20_memory.md section 4, 10_state.md rule R23) -/

namespace Sys2Proof.Machine

/-- The state with another queue and line. -/
def State.withStream (s : State) (q : List Word32) (o : List Word24) : State := { s with queue := q, out := o }

/-- The part of a state that is neither queue nor line nor the serializer's. -/
def State.hostSide (s : State) : State := { s with queue := [], out := [], serRecords := [] }

section HostSide
variable {s t : State} {q : List Word32} {o : List Word24}

/-- An instruction does to the host's side the same for any queue and line with as much room: EMIT, which alone reads
more of them, does nothing to it. -/
theorem exec_hostSide {i : Instr} (hroom : (s.withStream q o).hasRoom = s.hasRoom) (e : exec i s = .next t) :
    ∃ u, exec i (s.withStream q o) = .next u ∧ u.hostSide = t.hostSide := by
  have hl : (s.withStream q o).live = true := (exec_live e : s.live = true)
  cases i with
  | convert h sat v =>
    obtain ⟨-, ⟨w, hw, rfl⟩ | ⟨f, hf, rfl⟩⟩ := execConvert_next e
    · exact ⟨_, execConvert_word hl hw, rfl⟩
    · exact ⟨_, execConvert_range hl hf, rfl⟩
  | push w =>
    obtain ⟨-, ⟨hr, rfl⟩ | ⟨hr, rfl⟩⟩ := execPush_next e
    · exact ⟨_, execPush_room hl (hroom.trans hr), rfl⟩
    · exact ⟨_, execPush_held hl (hroom.trans hr), rfl⟩
  | emit =>
    have ht : t.hostSide = s.hostSide := by
      obtain ⟨-, ⟨-, rfl⟩ | ⟨w, rest, -, rfl⟩⟩ := execEmit_next e <;> rfl
    cases q with
    | nil => exact ⟨_, execEmit_nil hl rfl, ht.symm⟩
    | cons w rest => exact ⟨_, execEmit_cons hl rfl, ht.symm⟩
  | reserved =>
    obtain ⟨-, rfl⟩ := execReserved_next e
    exact ⟨_, whenLive_of_live hl _, rfl⟩

theorem State.agentDone_hostSide (s : State) :
    (s.agentDone .host).hostSide = (s.hostSide.agentDone .host).hostSide := by
  have hd : s.hostSide.driver = s.driver := rfl
  unfold State.agentDone
  rw [hd]
  cases s.driver with
  | repository => rfl
  | records => rfl

theorem State.settle_serializer_hostSide (s t : State) (i : Instr) :
    (s.settle .serializer i t).hostSide = t.hostSide := by
  unfold State.settle
  split
  · rfl
  · rfl

theorem settle_host_hostSide {s' u : State} {i : Instr} (hh : s'.holds i = s.holds i) (h : u.hostSide = t.hostSide) :
    (s'.settle .host i u).hostSide = (s.settle .host i t).hostSide := by
  have hl : u.live = t.live := (congrArg State.live h :)
  unfold State.settle
  rw [hh, hl]
  split
  · exact h
  · rw [u.agentDone_hostSide, t.agentDone_hostSide, h]

theorem holds_withStream {i : Instr} (hi : i ≠ .emit) (hroom : (s.withStream q o).hasRoom = s.hasRoom) :
    (s.withStream q o).holds i = s.holds i := by
  cases i with
  | convert h sat v => rfl
  | push w => rw [State.holds_push, State.holds_push, hroom]
  | emit => exact absurd rfl hi
  | reserved => rfl

theorem issue_hostSide {a : Agent} {r : Record} (hroom : (s.withStream q o).hasRoom = s.hasRoom)
    (e : issue a r s = .next t) : ∃ u, issue a r (s.withStream q o) = .next u ∧ u.hostSide = t.hostSide := by
  obtain ⟨hl, ⟨⟨why, hd⟩, rfl⟩ | ⟨i, v, hd, hv, rfl⟩⟩ := issue_next e
  · exact ⟨_, issue_refused (s := s.withStream q o) hl hd, rfl⟩
  · obtain ⟨u, hu, huv⟩ := exec_hostSide hroom hv
    refine ⟨_, issue_ok hd hu, ?_⟩
    cases a with
    | serializer => rw [State.settle_serializer_hostSide, State.settle_serializer_hostSide, huv]
    | host =>
      have hi : i ≠ .emit := by rintro rfl; exact decode_host_ne_emit r hd
      exact settle_host_hostSide (holds_withStream hi hroom) huv

theorem actionOf_withStream (a : Agent) : (s.withStream q o).actionOf a = s.actionOf a := by
  cases a <;> rfl

theorem step_hostSide (hroom : (s.withStream q o).hasRoom = s.hasRoom) (e : step s = .next t) :
    ∃ u, step (s.withStream q o) = .next u ∧ u.hostSide = t.hostSide := by
  have hact' : (s.withStream q o).actionOf (s.withStream q o).nextAgent = s.actionOf s.nextAgent :=
    actionOf_withStream _
  obtain ⟨hl, ⟨r, hact, hr⟩ | ⟨hact, rfl⟩ | ⟨hact, rfl⟩ | ⟨hact, rfl⟩ | ⟨hact, rfl⟩⟩ := step_next e
  · rw [step_request (hact'.trans hact)]
    exact issue_hostSide (s := s.takeTurn) hroom hr
  · exact ⟨_, step_sample hl (hact'.trans hact), rfl⟩
  · exact ⟨_, step_endFrame hl (hact'.trans hact), rfl⟩
  · exact ⟨_, step_pace hl (hact'.trans hact), rfl⟩
  · exact ⟨_, step_idle hl (hact'.trans hact), rfl⟩

end HostSide

/-- Settles O41: each field named is one of the host's side. -/
theorem hostSeesOnlyWhetherThereIsRoom : Obligations.HostSeesOnlyWhetherThereIsRoom := by
  intro s t q o e hroom
  obtain ⟨u, hu, h⟩ := step_hostSide hroom e
  exact ⟨u, hu, (congrArg State.repo h :), (congrArg State.prog h :), (congrArg State.driver h :),
    (congrArg State.ret h :), (congrArg State.adc h :), (congrArg State.sched h :), (congrArg State.fault h :),
    (congrArg State.refused h :)⟩

end Sys2Proof.Machine

/-! ## The host's variables (30_encoding.md section 5) -/

namespace Sys2Proof.Machine

/-- Settles O48: the variable reads as the word written when its PUSH comes, and every other as before. -/
theorem variableCarriesTheConvertedWord : Obligations.VariableCarriesTheConvertedWord := by
  intro s n h sat v w rest turns hl hdrv hprog hturns hc hroom
  have hwritten : (s.prog.setVar (.named n) w).getVar (.named n) = w := (s.prog.getVar_setVar ..).trans (if_pos rfl)
  exact ⟨_, run_cons (step_programConvert hl hdrv hprog hturns hc)
    (run_cons (step_programPush hl hdrv rfl rfl hroom) rfl), congrArg (fun u => s.queue ++ [u]) hwritten, rfl, hwritten,
    fun x hx => (s.prog.getVar_setVar ..).trans (if_neg hx.symm)⟩

theorem wfVars_agentDone {s : State} (a : Agent) (h : wfVars s.prog.vars = true) :
    wfVars (s.agentDone a).prog.vars = true := by
  unfold State.agentDone
  split
  · exact h
  · exact RecordHost.done_wf s.ret h
  · exact h

theorem wfVars_settle {t : State} (s : State) (a : Agent) (i : Instr) (h : wfVars t.prog.vars = true) :
    wfVars (s.settle a i t).prog.vars = true := by
  unfold State.settle
  split
  · exact h
  · exact wfVars_agentDone a h

/-- Settles O49: only the agent's going on after its request writes a variable, and that keeps the form. -/
theorem hostVariablesStayCanonical : Obligations.HostVariablesStayCanonical := by
  intro s t h e
  obtain ⟨-, ⟨r, -, hr⟩ | ⟨-, rfl⟩ | ⟨-, rfl⟩ | ⟨-, rfl⟩ | ⟨-, rfl⟩⟩ := step_next e
  case inl =>
    obtain ⟨-, ⟨-, rfl⟩ | ⟨i, u, -, hu, rfl⟩⟩ := issue_next hr
    · exact h
    · exact wfVars_settle _ _ _ (by rwa [exec_prog hu])
  all_goals exact h

/-- Settles O50, by evaluation of the reader on each text. -/
theorem assemblyTextReads : Obligations.AssemblyTextReads := by
  unfold Obligations.AssemblyTextReads
  decide +kernel

end Sys2Proof.Machine
